-- ==== Sys2Proof/Word.lean ====
section
/-! DEFINITION. The three bit-vector types of the hardware (00_scope.md R8, 30_encoding.md R72). -/

namespace Sys2Proof

/-- A byte: 8 bits (R8: "`byte` means 8 bits"). -/
abbrev Byte := BitVec 8

/-- A word: 32 bits, unsigned (R8: "`word` means 32 bits"); `+` on it is addition modulo 2^32 (R9). -/
abbrev Word := BitVec 32

/-- A command word as the host presents it: exactly 16 bits (R72). -/
abbrev CmdWord := BitVec 16

end Sys2Proof
end

