-- ==== Sys2Proof/Config.lean ====
section
/-! DEFINITION. What an implementation fixes (`LEN_BITS`, 00_scope.md R6) and the free values: data the spec
leaves unspecified after a reset (70_reset_and_hazards.md R190). Nothing else is a parameter (R7). -/

namespace Sys2Proof

/-- `LEN_BITS` (R6): "an integer with `1 <= LEN_BITS <= 61`". An out-of-range value cannot be built. -/
abbrev LenBits := { n : Nat // 1 ≤ n ∧ n ≤ 61 }

/-- The default instance, `LEN_BITS = 61` (R6). -/
def LenBits.default : LenBits := ⟨61, And.intro (Nat.le_of_ble_eq_true rfl) (Nat.le_refl 61)⟩

/-- FREE VALUE (log entry 4): word number `i` of the data registers after reset event number `n`
(R190: `H[0..4]`, `A..E`, `W[0..79]` "are unspecified"). It has no body: no proof can see a value of it. -/
opaque Config.freeWord (n i : Nat) : Word

/-- FREE VALUE (log entry 4): byte `p` of `BLK` after reset event number `n` (R190: `BLK[0..63]` unspecified). -/
opaque Config.freeByte (n p : Nat) : Byte

end Sys2Proof
end

