-- ==== Sys2Proof/Machine/State.lean ====
section
/-! DEFINITION. The state of one SHA1CORE instance (10_state.md R20), the model's own fields beside it
(the instance's parameter, the command port, the count of resets), and the state after reset (R35, R190). -/

namespace Sys2Proof.Machine

open Sys2Proof

/-- The sequencer phase (R29). -/
inductive Phase where
  /-- Code 0: after reset, no transaction open. -/
  | idle
  /-- Code 1: a transaction is open, message bytes are accepted. -/
  | absorb
  /-- Code 2: the final digest is in `H`. -/
  | done
  /-- Code 3: a fault was taken. -/
  | fault
  deriving DecidableEq, Repr

/-- The hardware's three faults (R166). They are taken (R170), never a stop of the model. -/
inductive FaultCode where
  /-- Code 1: a reserved command word (R167). -/
  | illegalCommand
  /-- Code 2: a legal command in a phase that does not accept it (R169). -/
  | protocolError
  /-- Code 3: the message would exceed `LEN_MAX` bytes (R168). -/
  | lengthOverflow
  deriving DecidableEq, Repr

/-- An ordered 5-tuple of words: the digest state `H[0..4]` (R21) or the working registers `A..E` (R22). -/
structure Words5 where
  a : Word
  b : Word
  c : Word
  d : Word
  e : Word
  deriving DecidableEq, Repr

/-- The response to a command (30_encoding.md R73): a fault bit and 32 bits of data. -/
structure Response where
  fault : Bool
  data : Word
  deriving DecidableEq, Repr

/-- What the outside world does to the core: it presents a command word (R70) or applies the reset (R190).
Either lands between two commands, never inside one (20_memory.md R60, R191). -/
inductive HostEvent where
  /-- The host presents a command word on the command port. -/
  | command (cw : CmdWord)
  /-- The platform applies reset. -/
  | reset
  deriving DecidableEq, Repr

/-- Everything R20 gives the machine, and the model's own fields (last four). -/
structure State where
  /-- `H[0..4]`, the digest state (R21). -/
  h : Words5
  /-- `A, B, C, D, E` (= `WR[0..4]`), the working registers (R22). -/
  wr : Words5
  /-- `W[0..79]`, the message schedule (R23). -/
  w : Vector Word 80
  /-- `BLK[0..63]`, the block buffer (R24). -/
  blk : Vector Byte 64
  /-- `FILL`, the number of valid bytes in `BLK` (R25): 0..64, and 0..63 between commands. -/
  fill : Nat
  /-- `LEN`, the number of message bytes accepted (R27): 0..`LEN_MAX`. -/
  len : Nat
  /-- `PHASE` (R29). -/
  phase : Phase
  /-- `ERR` (R28): none for 0, else the first fault since `INIT` or reset. Codes 4..15 are never produced. -/
  err : Option FaultCode
  /-- `BADCMD` (R28): the command word of that first fault. -/
  badcmd : CmdWord
  /-- MODEL: the instance's parameter `LEN_BITS` (00_scope.md R6); no step changes it. -/
  lenBits : LenBits
  /-- MODEL: what the outside world will do, in order, one event a step (log entry 2). -/
  port : List HostEvent
  /-- MODEL: the response to the last command (R73); none before the first (log entry 3). -/
  response : Option Response
  /-- MODEL: how many resets have been applied; it indexes the free values of R190 (log entry 4). -/
  resets : Nat
  deriving DecidableEq, Repr

/-- Why a step of the MODEL stops. (The hardware's own faults are `FaultCode`, and never stop it.) -/
inductive Fault where
  /-- Raised by `PUSH` and `FINAL` in phase `ABSORB` when `FILL > 63`, so that the byte would be stored at an
  address of `BLK` that does not exist (20_memory.md R54 requires `p + n <= 64`). Safe: R25 excludes such a state
  at every command boundary, and no run from reset reaches one (log entry 5). -/
  | fillOutOfRange
  deriving DecidableEq, Repr

/-- Why a command has no meaning in this model. -/
inductive Refusal where
  /-- Kept for exec's refused arms; no arm uses it: every command is modelled. Safe. -/
  | notModelled (mnemonic : String)
  deriving DecidableEq, Repr

/-- The three outcomes of a step, at this machine's types. -/
abbrev Result := Host.Outcome State Fault Refusal

/-- Five words of zero: the named value of `H` and `A..E` after reset (log entry 1). -/
def Words5.zero : Words5 := ⟨0, 0, 0, 0, 0⟩

/-- The machine right after reset, for an instance with parameter `n` (R35, R190). `H`, `A..E`, `W`, `BLK` have no
reset value in the spec: zero is DESIGN CHOICE (log entry 1). -/
def State.resetFor (n : LenBits) : State where
  h := Words5.zero
  wr := Words5.zero
  w := Vector.replicate 80 0
  blk := Vector.replicate 64 0
  fill := 0
  len := 0
  phase := .idle
  err := none
  badcmd := 0
  lenBits := n
  port := []
  response := none
  resets := 0

/-- The default instance (`LEN_BITS = 61`, R6) right after reset. -/
def State.reset : State := State.resetFor LenBits.default

end Sys2Proof.Machine
end

