-- ==== Sys2Proof/Machine/Ops.lean ====
section
/-! DEFINITION. The shared operations: rotation and byte order (00_scope.md R11, R12), access to `BLK`
(20_memory.md R53, R54), the response (30_encoding.md R73), taking a fault (60_exceptions.md R170) and leaving
it (R173), and reset (70_reset_and_hazards.md R190). -/

namespace Sys2Proof.Machine

open Sys2Proof

/-! ## Words and bytes -/

/-- `rotl32(x, n)` for `0 < n < 32` (R11): `((x << n) mod 2^32) OR (x >> (32 - n))`. -/
def rotl32 (x : Word) (n : Nat) : Word := (x <<< n) ||| (x >>> (32 - n))

/-- `be32(b0, b1, b2, b3)` (R12): `b0 * 2^24 + b1 * 2^16 + b2 * 2^8 + b3`, first byte most significant. -/
def be32 (b0 b1 b2 b3 : Byte) : Word :=
  BitVec.ofNat 32 (b0.toNat * 2 ^ 24 + b1.toNat * 2 ^ 16 + b2.toNat * 2 ^ 8 + b3.toNat)

/-- `bytes_be32(w)` (R12): `w[31:24], w[23:16], w[15:8], w[7:0]`. -/
def bytesBe32 (w : Word) : List Byte :=
  [w.extractLsb' 24 8, w.extractLsb' 16 8, w.extractLsb' 8 8, w.extractLsb' 0 8]

/-- `bytes_be64(v)` (R12): `v[63:56], v[55:48], ..., v[7:0]`. -/
def bytesBe64 (v : BitVec 64) : List Byte :=
  [v.extractLsb' 56 8, v.extractLsb' 48 8, v.extractLsb' 40 8, v.extractLsb' 32 8,
   v.extractLsb' 24 8, v.extractLsb' 16 8, v.extractLsb' 8 8, v.extractLsb' 0 8]

/-- Element `i` of a 5-tuple: `H[i]`, `WR[i]` (R13). -/
def Words5.get (x : Words5) (i : Fin 5) : Word :=
  match i with
  | 0 => x.a
  | 1 => x.b
  | 2 => x.c
  | 3 => x.d
  | 4 => x.e

/-- The word-by-word sum modulo 2^32 of two 5-tuples, `(+)` of R137; no carry passes between words. -/
def Words5.add (x y : Words5) : Words5 :=
  ⟨x.a + y.a, x.b + y.b, x.c + y.c, x.d + y.d, x.e + y.e⟩

/-! ## The block buffer -/

/-- `MemRead(BLK, p, 1)` (R53). The precondition `p < 64` holds wherever the rules use it. -/
def memRead1 (blk : Vector Byte 64) (p : Nat) : Byte := blk[p]?.getD 0

/-- `MemRead(BLK, p, 4)` (R53): four bytes as one big-endian word. -/
def memRead4 (blk : Vector Byte 64) (p : Nat) : Word :=
  be32 (memRead1 blk p) (memRead1 blk (p + 1)) (memRead1 blk (p + 2)) (memRead1 blk (p + 3))

/-- `MemWrite(BLK, p, 1, b)` (R54). "A write changes the addressed bytes and nothing else." -/
def memWrite1 (blk : Vector Byte 64) (p : Nat) (b : Byte) : Vector Byte 64 := blk.setIfInBounds p b

/-- Write the listed bytes at `p`, `p + 1`, ... -/
def memWriteBytes (blk : Vector Byte 64) (p : Nat) : List Byte → Vector Byte 64
  | [] => blk
  | b :: bs => memWriteBytes (memWrite1 blk p b) (p + 1) bs

/-- `MemWrite(BLK, p, 8, v)` (R54): `BLK[p+m] <- bytes_be64(v)[m]`. -/
def memWrite8 (blk : Vector Byte 64) (p : Nat) (v : BitVec 64) : Vector Byte 64 :=
  memWriteBytes blk p (bytesBe64 v)

/-! ## The instance -/

/-- `LEN_MAX = 2^LEN_BITS - 1` (R6). -/
def State.lenMax (s : State) : Nat := 2 ^ s.lenBits.val - 1

/-- The five initial constants of the digest state (R21). -/
def iv : Words5 := ⟨0x67452301, 0xEFCDAB89, 0x98BADCFE, 0x10325476, 0xC3D2E1F0⟩

/-! ## Response, fault, reset -/

/-- `respond(d)` (R13, R73): the command completes without fault and answers `(0, d)`. -/
def State.respond (s : State) (d : Word) : State :=
  { s with response := some ⟨false, d⟩ }

/-- `PHASE <- p` (R13). -/
def State.setPhase (s : State) (p : Phase) : State := { s with phase := p }

/-- The numeric code of a fault (R166), as the response carries it: `zext_32(code)`. -/
def FaultCode.data : FaultCode → Word
  | .illegalCommand => 1
  | .protocolError => 2
  | .lengthOverflow => 3

/-- `fault_entry(code, cw)` (R170), the one way a fault is taken: `ERR` and `BADCMD` record only the first fault
since `INIT` or reset, `PHASE` becomes `FAULT`, the response is `(1, code)`, and nothing else is written. There is
no handler, no saved pc and no mode change: control goes nowhere. -/
def State.faultEntry (s : State) (code : FaultCode) (cw : CmdWord) : State :=
  { s with
    err := if s.phase = .fault then s.err else some code
    badcmd := if s.phase = .fault then s.badcmd else cw
    phase := .fault
    response := some ⟨true, code.data⟩ }

/-- `raise X(cw)` (R13): the command stops here and fault entry is its whole effect. -/
def raise (code : FaultCode) (cw : CmdWord) (s : State) : Result := .next (s.faultEntry code cw)

/-- Leaving phase `FAULT` (R173), as `INIT` does it (R93): the record is cleared and `PHASE` becomes `ABSORB`.
There is no return-from-trap command and nothing is restored. -/
def State.leaveFault (s : State) : State :=
  { s with err := none, badcmd := 0, phase := .absorb }

/-- Reset applied between two commands (R190, R191). The control state takes the values of R35; the data state is
unspecified, so every element of it is a free value; no response is pending. -/
def State.applyReset (s : State) : State where
  h := ⟨Config.freeWord s.resets 0, Config.freeWord s.resets 1, Config.freeWord s.resets 2,
        Config.freeWord s.resets 3, Config.freeWord s.resets 4⟩
  wr := ⟨Config.freeWord s.resets 5, Config.freeWord s.resets 6, Config.freeWord s.resets 7,
         Config.freeWord s.resets 8, Config.freeWord s.resets 9⟩
  w := Vector.ofFn fun t => Config.freeWord s.resets (10 + t.val)
  blk := Vector.ofFn fun p => Config.freeByte s.resets p.val
  fill := 0
  len := 0
  phase := .idle
  err := none
  badcmd := 0
  lenBits := s.lenBits
  port := s.port
  response := none
  resets := s.resets + 1

end Sys2Proof.Machine
end

