-- ==== Sys2Proof/Machine/Flags.lean ====
section
/-! DEFINITION. The hardware has no flags or condition codes (10_state.md R32); the nearest things to them are the
fields of `STATUS` (R30), a view assembled from the state, and the two comparisons of the Framer. -/

namespace Sys2Proof.Machine

open Sys2Proof

/-- The 2-bit code of a phase (R29). -/
def Phase.code : Phase → BitVec 2
  | .idle => 0
  | .absorb => 1
  | .done => 2
  | .fault => 3

/-- `ERR`, 4 bits (R28, R166): 0 for no fault recorded. -/
def errCode : Option FaultCode → BitVec 4
  | none => 0
  | some .illegalCommand => 1
  | some .protocolError => 2
  | some .lengthOverflow => 3

/-- `STATUS = {BADCMD, 0b00, FILL[5:0], ERR, 0b00, PHASE}` (R30): `BADCMD` at bit 16, `FILL[5:0]` at bit 8, `ERR` at
bit 4, `PHASE` at bit 0, zeros in `[15:14]` and `[3:2]`. -/
def State.status (s : State) : Word :=
  BitVec.ofNat 32 (s.badcmd.toNat * 2 ^ 16 + (BitVec.ofNat 6 s.fill).toNat * 2 ^ 8 + (errCode s.err).toNat * 2 ^ 4
    + s.phase.code.toNat)

end Sys2Proof.Machine
end

