-- ==== Sys2Proof/Syntax.lean ====
section
/-! DEFINITION. The seven host commands of the opcode table (30_encoding.md R74), one constructor a row.
The operand is the raw 8-bit `arg` field (R75): which values are legal is WellFormed's to say, and what an
illegal index does (IllegalCommand, R76) is the meaning's. -/

namespace Sys2Proof

/-- A command of the core (R74). There is no other instruction: micro-operations have no encoding (R16). -/
inductive Instr where
  /-- `INIT`: open a hash transaction (R93). -/
  | init
  /-- `PUSH b`: absorb the message byte `b` (R94). -/
  | push (b : Byte)
  /-- `FINAL`: pad, compress the last block or two, close the transaction (R95). -/
  | final
  /-- `RDW i`: read digest word `i` (R153). -/
  | rdw (i : Byte)
  /-- `RDB j`: read digest byte `j` (R154). -/
  | rdb (j : Byte)
  /-- `RDHEX k`: read hexadecimal character `k` of the digest (R155). -/
  | rdhex (k : Byte)
  /-- `STAT`: read the status word (R157). -/
  | stat
  deriving DecidableEq, Repr

end Sys2Proof
end

