-- ==== Sys2Proof/WellFormed.lean ====
section
/-! DEFINITION. Which commands are legal: the column "legal `arg`" of 30_encoding.md R74. -/

namespace Sys2Proof

/-- The operand is one the assembler may emit (R74, R80): `RDW` 0..4, `RDB` 0..19, `RDHEX` 0..39, `PUSH` any byte. -/
def Instr.wf : Instr → Bool
  | .init => true
  | .push _ => true
  | .final => true
  | .rdw i => decide (i.toNat ≤ 4)
  | .rdb j => decide (j.toNat ≤ 19)
  | .rdhex k => decide (k.toNat ≤ 39)
  | .stat => true

end Sys2Proof
end

