-- ==== Sys2Proof/Decode.lean ====
section
/-! DEFINITION. Command words: the fields of format `C` (30_encoding.md R72), the decoder (R74, R76, R77 step 1),
total on all 2^16 words and rejecting by the name of the reserved class, and the encoder (R80). -/

namespace Sys2Proof

/-- `op`, bits 15..12 of the command word (R72). -/
def opField (cw : CmdWord) : BitVec 4 := cw.extractLsb' 12 4

/-- `zero`, bits 11..8 of the command word (R72). -/
def zeroField (cw : CmdWord) : BitVec 4 := cw.extractLsb' 8 4

/-- `arg`, bits 7..0 of the command word, used as an unsigned 8-bit value as it stands (R72, R75). -/
def argField (cw : CmdWord) : Byte := cw.extractLsb' 0 8

/-- The five classes of reserved words, in R76's order. -/
inductive Reserved where
  /-- `op = 0x0` (class 1). -/
  | opZero
  /-- `op` in `0x8 .. 0xF` (class 2). -/
  | opHigh
  /-- `op` in `0x1 .. 0x7` with `zero != 0` (class 3). -/
  | zeroNonzero
  /-- `INIT`, `FINAL` or `STAT` with `arg != 0` (class 4). -/
  | argNonzero
  /-- `RDW`, `RDB` or `RDHEX` with an index beyond the digest (class 5). -/
  | indexRange
  deriving DecidableEq, Repr

/-- What the decoder answers: one of the 324 legal words, or a reserved word with its class. -/
inductive Decoded where
  /-- The word is this command. -/
  | legal (i : Instr)
  /-- The word is reserved (R76). -/
  | reserved (r : Reserved)
  deriving DecidableEq, Repr

/-- Step 1 and the `case` of R77, on the three fields. Operation codes 8..15 have been turned away before
the match; its last arm is theirs again. -/
def decodeFields (op zero : BitVec 4) (arg : Byte) : Decoded :=
  if op = 0 then .reserved .opZero
  else if 8 ≤ op.toNat then .reserved .opHigh
  else if zero ≠ 0 then .reserved .zeroNonzero
  else match op.toNat with
    | 1 => if arg = 0 then .legal .init else .reserved .argNonzero
    | 2 => .legal (.push arg)
    | 3 => if arg = 0 then .legal .final else .reserved .argNonzero
    | 4 => if arg.toNat ≤ 4 then .legal (.rdw arg) else .reserved .indexRange
    | 5 => if arg.toNat ≤ 19 then .legal (.rdb arg) else .reserved .indexRange
    | 6 => if arg.toNat ≤ 39 then .legal (.rdhex arg) else .reserved .indexRange
    | 7 => if arg = 0 then .legal .stat else .reserved .argNonzero
    | _ => .reserved .opHigh

/-- Decode a command word (R74, R76, R77 step 1). -/
def decode (cw : CmdWord) : Decoded :=
  decodeFields (opField cw) (zeroField cw) (argField cw)

/-- The operation code of a command (R74, column `op`). -/
def Instr.op : Instr → BitVec 4
  | .init => 0x1
  | .push _ => 0x2
  | .final => 0x3
  | .rdw _ => 0x4
  | .rdb _ => 0x5
  | .rdhex _ => 0x6
  | .stat => 0x7

/-- The operand of a command; `0x00` for the three that have none (R72). -/
def Instr.arg : Instr → Byte
  | .init => 0x00
  | .push b => b
  | .final => 0x00
  | .rdw i => i
  | .rdb j => j
  | .rdhex k => k
  | .stat => 0x00

/-- Assemble a command: `cw = op * 4096 + arg` (R80). -/
def encode (i : Instr) : CmdWord := BitVec.ofNat 16 (i.op.toNat * 4096 + i.arg.toNat)

/-- The instruction the decoder reads from a table word. A command word is exactly 16 bits (R72), so a number
that does not fit 16 bits is no command. -/
def decodeTableWord (nbits w : Nat) : Option Instr :=
  let v := w % 2 ^ nbits
  if v < 2 ^ 16 then
    match decode (BitVec.ofNat 16 v) with
    | .legal i => some i
    | .reserved _ => none
  else none

end Sys2Proof
end

