-- ==== Sys2Proof/Machine/Operands.lean ====
section
/-! DEFINITION. The operand forms (30_encoding.md R75, 20_memory.md R57): a message byte is `arg` itself; an index is
`arg` as an unsigned number, legal below the size of the view; and what an index selects of the digest
(44_readout.md R153 to R155). -/

namespace Sys2Proof.Machine

open Sys2Proof

/-- An index operand of a view of `n` elements (R57): `arg` as it stands, or none where it is a reserved encoding. -/
def indexOperand (n : Nat) (arg : Byte) : Option (Fin n) :=
  if h : arg.toNat < n then some ⟨arg.toNat, h⟩ else none

/-- The ASCII code of the lowercase hexadecimal digit `n` (R15), for `0 <= n <= 15`. -/
def hexdigit (n : BitVec 4) : Byte :=
  if n.toNat ≤ 9 then 0x30 + n.zeroExtend 8 else 0x61 + (n.zeroExtend 8 - 10)

/-- Digest byte `j` (R154): `w[31 - 8*m : 24 - 8*m]` of `w = H[j div 4]`, `m = j mod 4`. -/
def digestByte (h : Words5) (j : Fin 20) : Byte :=
  (h.get ⟨j.val / 4, by omega⟩).extractLsb' (24 - 8 * (j.val % 4)) 8

/-- Hexadecimal character `k` (R155): the digit of `w[31 - 4*n : 28 - 4*n]` of `w = H[k div 8]`, `n = k mod 8`. -/
def digestChar (h : Words5) (k : Fin 40) : Byte :=
  hexdigit ((h.get ⟨k.val / 8, by omega⟩).extractLsb' (28 - 4 * (k.val % 8)) 4)

end Sys2Proof.Machine
end

