-- ==== Sys2Proof/Machine/Scheduler.lean ====
section
/-! DEFINITION. The message-schedule expander (41_scheduler.md): the function `Schedule` (R113) and the
micro-operations `LOADW` (R111) and `EXPAND` (R112). -/

namespace Sys2Proof.Machine

open Sys2Proof

/-- A block: 64 bytes (R5). -/
abbrev Block := Vector Byte 64

/-- Word `t` of the schedule of `P`, given the words before it (R113). -/
def scheduleNext (P : Block) (before : List Word) (t : Nat) : Word :=
  if t < 16 then memRead4 P (4 * t)
  else rotl32 (before.getD (t - 3) 0 ^^^ before.getD (t - 8) 0 ^^^ before.getD (t - 14) 0 ^^^ before.getD (t - 16) 0) 1

/-- The first `n` words of the schedule of `P`. -/
def schedulePrefix (P : Block) : Nat → List Word
  | 0 => []
  | t + 1 => schedulePrefix P t ++ [scheduleNext P (schedulePrefix P t) t]

/-- `Schedule(P)` (R113): the 80 words, a function of the block alone. -/
def schedule (P : Block) : List Word := schedulePrefix P 80

/-- `W[t]`, read (R13). The precondition `t < 80` holds wherever the rules use it. -/
def wordAt (w : Vector Word 80) (t : Nat) : Word := w[t]?.getD 0

/-- One word load of `LOADW`: `W[j] <- MemRead(BLK, 4*j, 4)` (R111). It reads `BLK` and writes `W`, nothing else (R33). -/
def loadWord (blk : Block) (w : Vector Word 80) (j : Nat) : Vector Word 80 :=
  w.setIfInBounds j (memRead4 blk (4 * j))

/-- `LOADW` (R111): `for j in 0 .. 15`. -/
def loadW (s : State) : State := { s with w := (List.range 16).foldl (loadWord s.blk) s.w }

/-- `EXPAND(t)` (R112), `16 <= t <= 79`. It reads and writes `W`, nothing else (R33). -/
def expand (w : Vector Word 80) (t : Nat) : Vector Word 80 :=
  let x := wordAt w (t - 3) ^^^ wordAt w (t - 8) ^^^ wordAt w (t - 14) ^^^ wordAt w (t - 16)
  w.setIfInBounds t (rotl32 x 1)

/-- `for t in 16 .. 79: EXPAND(t)` (R114, R138). -/
def expandAll (s : State) : State := { s with w := (List.range' 16 64).foldl expand s.w }

end Sys2Proof.Machine
end

