-- ==== Sys2Proof/Machine/Compressor.lean ====
section
/-! DEFINITION. The 80-round mixer (42_compressor.md): the functions `f_t`, `K_t` (R122), `Round` (R124), `Rounds`
(R125) and the micro-operations `SEED` (R121) and `ROUND` (R124). -/

namespace Sys2Proof.Machine

open Sys2Proof

/-- `Ch`: `(b AND c) OR ((NOT b) AND d)` (R122). -/
def ch (b c d : Word) : Word := (b &&& c) ||| (~~~b &&& d)

/-- `Parity`: `b XOR c XOR d` (R122). -/
def parity (b c d : Word) : Word := b ^^^ c ^^^ d

/-- `Maj`: `(b AND c) OR (b AND d) OR (c AND d)` (R122). -/
def maj (b c d : Word) : Word := (b &&& c) ||| (b &&& d) ||| (c &&& d)

/-- `f_t` (R122): the stage, not the data, selects the function. -/
def roundF (t : Nat) : Word → Word → Word → Word :=
  if t < 20 then ch else if t < 40 then parity else if t < 60 then maj else parity

/-- `K_t` (R122). -/
def roundK (t : Nat) : Word :=
  if t < 20 then 0x5A827999 else if t < 40 then 0x6ED9EBA1 else if t < 60 then 0x8F1BBCDC else 0xCA62C1D6

/-- `Round(t, (a,b,c,d,e), w)`, the function on 5-tuples (R124). -/
def roundFn (t : Nat) (r : Words5) (w : Word) : Words5 :=
  ⟨rotl32 r.a 5 + roundF t r.b r.c r.d + r.e + roundK t + w, r.a, rotl32 r.b 30, r.c, r.d⟩

/-- `r_n` of R125: the tuple after rounds `0 .. n-1` from the seed `S`. -/
def roundsPrefix (S : Words5) (w : List Word) : Nat → Words5
  | 0 => S
  | t + 1 => roundFn t (roundsPrefix S w t) (w.getD t 0)

/-- `Rounds(S, w[0..79])` (R125). -/
def rounds (S : Words5) (w : List Word) : Words5 := roundsPrefix S w 80

/-- `SEED` (R121): `A <- H[0]; ...; E <- H[4]`. -/
def seed (s : State) : State :=
  { s with wr := ⟨s.h.get 0, s.h.get 1, s.h.get 2, s.h.get 3, s.h.get 4⟩ }

/-- `ROUND(t)` (R124), the assignments to the working registers `r` in the order the rule writes them. It reads `W[t]`
and reads and writes `WR`, nothing else (R33). -/
def roundOp (w : Vector Word 80) (r : Words5) (t : Nat) : Words5 :=
  let temp := rotl32 r.a 5 + roundF t r.b r.c r.d + r.e + roundK t + wordAt w t
  let r := { r with e := r.d }
  let r := { r with d := r.c }
  let r := { r with c := rotl32 r.b 30 }
  let r := { r with b := r.a }
  let r := { r with a := temp }
  r

/-- `for t in 0 .. 79: ROUND(t)` (R125, R138). -/
def roundAll (s : State) : State := { s with wr := (List.range 80).foldl (roundOp s.w) s.wr }

end Sys2Proof.Machine
end

