-- ==== Sys2Proof/Machine/Accumulator.lean ====
section
/-! DEFINITION. The state accumulator (43_accumulator.md): the function `CompressBlock` (R137), the micro-operation
`ACCUM` (R136) and the composite `COMPRESS` (R138). -/

namespace Sys2Proof.Machine

open Sys2Proof

/-- `CompressBlock(S, P) = S (+) Rounds(S, Schedule(P))` (R137). -/
@[irreducible] def compressBlock (S : Words5) (P : Block) : Words5 := S.add (rounds S (schedule P))

/-- `ACCUM` (R136): `H[i] <- H[i] + WR[i]`, five independent sums. -/
def accum (s : State) : State := { s with h := s.h.add s.wr }

/-- `FILL <- 0`, the last line of `COMPRESS` (R138). -/
def clearFill (s : State) : State := { s with fill := 0 }

/-- `COMPRESS` (R138): `LOADW`, the 64 `EXPAND`s, `SEED`, the 80 `ROUND`s, `ACCUM`, `FILL <- 0`. -/
def compress (s : State) : State := clearFill (accum (roundAll (seed (expandAll (loadW s)))))

end Sys2Proof.Machine
end

