-- ==== Sys2Proof/Machine/Framer.lean ====
section
/-! DEFINITION. The framer and padder (40_framer.md): the function `Pad` (R98), the micro-operations `APPEND` (R91),
`PADMARK` (R92), `PADZERO` (R96), `PADLEN` (R97), and the commands `INIT` (R93), `PUSH` (R94), `FINAL` (R95). -/

namespace Sys2Proof.Machine

open Sys2Proof

/-! ## The function -/

/-- Block number `n` of a byte sequence: its bytes `64n .. 64n+63`. -/
def blockAt (xs : List Byte) (n : Nat) : Block := Vector.ofFn fun p => xs.getD (64 * n + p.val) 0

/-- `split64` (R98): a sequence whose length is a multiple of 64, cut into consecutive 64-byte blocks. -/
def split64 (xs : List Byte) : List Block := (List.range (xs.length / 64)).map (blockAt xs)

/-- The padded message (R90, R98): `M || 0x80 || 0x00^z || bytes_be64(8 * L)` with `z = (55 - L) mod 64`
(the mathematical modulus). The rules give it for `L <= LEN_MAX` only, so `8 * L < 2^64`. DESIGN CHOICE (log entry 14):
for longer messages this function is total and takes the length field modulo `2^64`. -/
def padBytes (M : List Byte) : List Byte :=
  M ++ [0x80] ++ List.replicate ((55 - (M.length : Int)) % 64).toNat 0x00 ++ bytesBe64 (BitVec.ofNat 64 (8 * M.length))

/-- `Pad(M)` (R98). For `L >= 2^61` it is the model's choice (log entry 14). -/
def pad (M : List Byte) : List Block := split64 (padBytes M)

/-! ## Micro-operations -/

/-- `APPEND(b)` (R91). -/
def append (s : State) (b : Byte) : State :=
  { s with blk := memWrite1 s.blk s.fill b, fill := s.fill + 1, len := s.len + 1 }

/-- `PADMARK` (R92): `LEN` is not incremented. -/
def padMark (s : State) : State :=
  { s with blk := memWrite1 s.blk s.fill 0x80, fill := s.fill + 1 }

/-- `n` turns of `PADZERO`'s write `BLK[FILL] <- 0x00`, from offset `p` on. -/
def zeroFill (blk : Block) (p : Nat) : Nat → Block
  | 0 => blk
  | n + 1 => zeroFill (memWrite1 blk p 0x00) (p + 1) n

/-- `PADZERO(limit)` (R96): `while FILL < limit`, which turns `limit - FILL` times, one byte and one count a turn. -/
def padZero (s : State) (limit : Nat) : State :=
  { s with blk := zeroFill s.blk s.fill (limit - s.fill), fill := s.fill + (limit - s.fill) }

/-- `PADLEN` (R97): `MemWrite(BLK, 56, 8, zext_64(LEN) * 8); FILL <- 64`. -/
def padLen (s : State) : State :=
  { s with blk := memWrite8 s.blk 56 (BitVec.ofNat 64 s.len * 8), fill := 64 }

/-! ## Commands -/

/-- The phase check (R77 step 2): outside phase `p` the command takes ProtocolError, else it runs. -/
def inPhase (p : Phase) (cw : CmdWord) (body : State → Result) (s : State) : Result :=
  if s.phase = p then body s else raise .protocolError cw s

/-- `INIT` (R93): `H <- IV`, the counters cleared, the fault record cleared, `PHASE <- ABSORB`, in every phase. -/
def execInit (s : State) : Result :=
  .next (({ s with h := iv, len := 0, fill := 0 }.leaveFault).respond 0)

/-- `PUSH` after its checks (R94): `APPEND(b)`, then `COMPRESS` if the block is full. -/
def absorbByte (s : State) (b : Byte) : State :=
  let s := append s b
  if s.fill = 64 then compress s else s

/-- `PUSH b` (R94): ProtocolError outside `ABSORB`, LengthOverflow when `LEN = LEN_MAX`, else the byte is absorbed.
The `FILL > 63` stop is R91's precondition, which no reachable state breaks (log entry 5). -/
def execPush (b : Byte) (s : State) : Result :=
  inPhase .absorb (encode (.push b)) (fun s =>
    if s.len = s.lenMax then raise .lengthOverflow (encode (.push b)) s
    else if 63 < s.fill then .fault .fillOutOfRange
    else .next ((absorbByte s b).respond 0)) s

/-- The padding and the last one or two `COMPRESS` of `FINAL` (R95), in the rule's order. -/
def closeMessage (s : State) : State :=
  let s := padMark s
  let s := if 56 < s.fill then compress (padZero s 64) else s
  compress (padLen (padZero s 56))

/-- `FINAL` (R95): ProtocolError outside `ABSORB`, else the transaction is closed and `PHASE <- DONE`.
The `FILL > 63` stop is R92's precondition, which no reachable state breaks (log entry 5). -/
def execFinal (s : State) : Result :=
  inPhase .absorb (encode .final) (fun s =>
    if 63 < s.fill then .fault .fillOutOfRange
    else .next (((closeMessage s).setPhase .done).respond 0)) s

end Sys2Proof.Machine
end

