-- ==== Sys2Proof/Machine/Readout.lean ====
section
/-! DEFINITION. Digest read-out and status (44_readout.md): the functions `toBytes` (R151) and `toHex` (R152), and the
commands `RDW` (R153), `RDB` (R154), `RDHEX` (R155), `STAT` (R157). -/

namespace Sys2Proof.Machine

open Sys2Proof

/-! ## The two renderings -/

/-- `toBytes(S)` (R151): `bytes_be32(S[0]) || ... || bytes_be32(S[4])`. -/
def toBytes (S : Words5) : List Byte :=
  bytesBe32 S.a ++ bytesBe32 S.b ++ bytesBe32 S.c ++ bytesBe32 S.d ++ bytesBe32 S.e

/-- The 8 hexadecimal characters of a word, most significant nibble first (R152). -/
def wordHex (w : Word) : List Byte :=
  (List.range 8).map fun n => hexdigit (w.extractLsb' (28 - 4 * n) 4)

/-- `toHex(S)` (R152): the words in order, no separators, no prefix. -/
def toHex (S : Words5) : List Byte :=
  wordHex S.a ++ wordHex S.b ++ wordHex S.c ++ wordHex S.d ++ wordHex S.e

/-! ## Commands -/

/-- A read-out command over a view of `n` elements: a reserved index takes IllegalCommand before the phase is looked
at (R77, R171), another phase than `DONE` takes ProtocolError, else the element is the response. No state is written. -/
def readView (n : Nat) (arg : Byte) (cw : CmdWord) (view : Words5 → Fin n → Word) (s : State) : Result :=
  match indexOperand n arg with
  | none => raise .illegalCommand cw s
  | some i => inPhase .done cw (fun s => .next (s.respond (view s.h i))) s

/-- `RDW i` (R153): responds `H[i]`. -/
def execRdw (i : Byte) (s : State) : Result := readView 5 i (encode (.rdw i)) Words5.get s

/-- `RDB j` (R154): responds digest byte `j`, zero-extended. -/
def execRdb (j : Byte) (s : State) : Result :=
  readView 20 j (encode (.rdb j)) (fun h j => (digestByte h j).zeroExtend 32) s

/-- `RDHEX k` (R155): responds the ASCII code of digest character `k`, zero-extended. -/
def execRdhex (k : Byte) (s : State) : Result :=
  readView 40 k (encode (.rdhex k)) (fun h k => (digestChar h k).zeroExtend 32) s

/-- `STAT` (R157): responds `STATUS`, in every phase; writes no state. -/
def execStat (s : State) : Result := .next (s.respond s.status)

end Sys2Proof.Machine
end

