-- ==== Sys2Proof/Machine/Dispatch.lean ====
section
/-! DEFINITION. The one dispatch: each command to its meaning (30_encoding.md R77 step 3). -/

namespace Sys2Proof.Machine

open Sys2Proof

/-- Run one command, taken off the port already. -/
def exec (i : Instr) (s : State) : Host.Outcome State Fault Refusal :=
  match i with
  | .init => Sys2Proof.Machine.execInit s
  | .push b => Sys2Proof.Machine.execPush b s
  | .final => Sys2Proof.Machine.execFinal s
  | .rdw n => Sys2Proof.Machine.execRdw n s
  | .rdb j => Sys2Proof.Machine.execRdb j s
  | .rdhex k => Sys2Proof.Machine.execRdhex k s
  | .stat => Sys2Proof.Machine.execStat s

end Sys2Proof.Machine
end

