-- ==== Sys2Proof/Machine/Port.lean ====
section
/-! DEFINITION. The command port (30_encoding.md R70, R71): what one event of the outside world does, and placing a
command at the head of the port. -/

namespace Sys2Proof.Machine

open Sys2Proof

/-- `execute(cw)` (R77): a reserved word takes IllegalCommand in every phase (R76, R167), a legal one runs. -/
def execute (cw : CmdWord) (s : State) : Result :=
  match decode cw with
  | .legal i => exec i s
  | .reserved _ => raise .illegalCommand cw s

/-- One event: a command is executed (R77), a reset applied (R190). -/
def handleEvent (e : HostEvent) (s : State) : Result :=
  match e with
  | .command cw => execute cw s
  | .reset => .next s.applyReset

/-- Take the next event off the port and let it happen. With nothing presented the core is idle and all its state
survives (60_exceptions.md R183; log entry 2). -/
def nextEvent (s : State) : Result :=
  match s.port with
  | [] => .next s
  | e :: rest => handleEvent e { s with port := rest }

/-- The command word of a table word: its low `nbits` bits, in the 16 bits of a command (R72). -/
def commandOfTableWord (nbits w : Nat) : CmdWord := BitVec.ofNat 16 (w % 2 ^ nbits)

/-- The host presents `cw` next, before whatever it had to present (log entry 2). -/
def present (cw : CmdWord) (s : State) : State := { s with port := .command cw :: s.port }

end Sys2Proof.Machine
end

