-- ==== Sys2Proof/Machine/Step.lean ====
section
/-! DEFINITION. One step: the next event on the command port (30_encoding.md R71). There is no program counter and no
fetch from memory (10_state.md R31, 20_memory.md R63). -/

namespace Sys2Proof.Machine

open Sys2Proof

/-- One step of the machine. -/
def step (s : State) : Host.Outcome State Fault Refusal := nextEvent s

/-- The state in which that table word is the command the host presents next (log entry 2). -/
def State.withFetchWord (s : State) (nbits w : Nat) : State := present (commandOfTableWord nbits w) s

end Sys2Proof.Machine
end

