-- ==== Sys2Proof/Machine/Hash.lean ====
section
/-! DEFINITION. The function the hardware computes, `Hash` (00_scope.md R2), on values alone. The commands do not use
it; the statements compare them with it (R16: the levels must agree). -/

namespace Sys2Proof.Machine

open Sys2Proof

/-- The digest state after the blocks `Ps` from `S`: `S <- CompressBlock(S, P[n])` in order (R2, R139). -/
def absorbBlocks (S : Words5) (Ps : List Block) : Words5 := Ps.foldl compressBlock S

/-- `Hash(M)` (R2), for the `M` that `Pad` is given for; beyond, see log entry 14. -/
def hashMessage (M : List Byte) : Words5 := absorbBlocks iv (pad M)

end Sys2Proof.Machine
end

