-- ==== Sys2Proof/Safety.lean ====
section
/-! DEFINITION. What counts as a safe state of the machine, in the terms the statements use: the control invariant
of every command boundary, the fault record's meaning, what it is to have absorbed a message, and when two states
cannot be told apart from outside. -/

namespace Sys2Proof.Machine

open Sys2Proof

/-- The relations between control fields that hold at every command boundary: `0 <= FILL <= 63` (R25), `LEN` fits the
instance (R27), `FILL = LEN mod 64` in `ABSORB` (R25), `FILL = 0` in `IDLE` and `DONE` and `LEN = 0` in `IDLE`
(R35, R95), a fault is recorded exactly in phase `FAULT` and `BADCMD` is 0 when none is (R28, R29). -/
structure ControlInv (s : State) : Prop where
  fill_le : s.fill ≤ 63
  len_le : s.len ≤ s.lenMax
  absorb_fill : s.phase = .absorb → s.fill = s.len % 64
  idle_empty : s.phase = .idle → s.fill = 0 ∧ s.len = 0
  done_empty : s.phase = .done → s.fill = 0
  err_iff_fault : s.err = none ↔ s.phase ≠ .fault
  badcmd_zero : s.err = none → s.badcmd = 0

/-- The recorded word explains the recorded fault (R28, R166): a reserved word for IllegalCommand, a command with a
phase condition for ProtocolError, a `PUSH` for LengthOverflow. -/
def FaultRecordSound (s : State) : Prop :=
  match s.err with
  | none => True
  | some .illegalCommand => ∃ r, decode s.badcmd = .reserved r
  | some .protocolError => ∃ i, decode s.badcmd = .legal i ∧ i ≠ .init ∧ i ≠ .stat
  | some .lengthOverflow => ∃ b, decode s.badcmd = .legal (.push b)

/-- The transaction open in `s` has absorbed exactly the message `M` (R65, R99): the counters, the chaining value of
the full blocks of `M`, and the rest of `M` in the buffer. -/
structure Absorbing (M : List Byte) (s : State) : Prop where
  phase_eq : s.phase = .absorb
  len_eq : s.len = M.length
  fill_eq : s.fill = M.length % 64
  h_eq : s.h = absorbBlocks iv (split64 M)
  blk_eq : ∀ p, p < s.fill → memRead1 s.blk p = M.getD (64 * (M.length / 64) + p) 0
  err_eq : s.err = none
  badcmd_eq : s.badcmd = 0

/-- Two states that the spec forbids a host to tell apart (10_state.md R36, R35): they may differ in `A..E`, in `W`,
in `BLK[FILL..63]`, and, in the phases where `H` is not defined or not readable, in `H`; and in the count of resets. -/
structure Agree (s t : State) : Prop where
  fill_eq : s.fill = t.fill
  len_eq : s.len = t.len
  phase_eq : s.phase = t.phase
  err_eq : s.err = t.err
  badcmd_eq : s.badcmd = t.badcmd
  lenBits_eq : s.lenBits = t.lenBits
  port_eq : s.port = t.port
  response_eq : s.response = t.response
  h_eq : s.phase = .absorb ∨ s.phase = .done → s.h = t.h
  blk_eq : ∀ p, p < s.fill → memRead1 s.blk p = memRead1 t.blk p

/-! ## The spec's tables, as the statements need them -/

/-- The length suffix's byte at offset `p` of the last block, 56..63 (R52, R97): byte `p - 56` of the bit length. -/
def lengthByte (len p : Nat) : Byte := BitVec.ofNat 8 (8 * len / 256 ^ (63 - p))

/-- The last block when `r <= 55` (R100): `r` message bytes, `0x80`, `55 - r` zeros, 8 length bytes. -/
def lastBlock (blk : Block) (r len : Nat) : Block := Vector.ofFn fun p =>
  if p.val < r then memRead1 blk p.val else if p.val = r then 0x80 else if p.val < 56 then 0 else lengthByte len p.val

/-- The block finished early when `r >= 56` (R100): `r` message bytes, `0x80`, `63 - r` zeros. -/
def earlyBlock (blk : Block) (r : Nat) : Block := Vector.ofFn fun p =>
  if p.val < r then memRead1 blk p.val else if p.val = r then 0x80 else 0

/-- The block that then carries the length (R100): 56 zeros, 8 length bytes. -/
def lengthBlock (len : Nat) : Block := Vector.ofFn fun p => if p.val < 56 then 0 else lengthByte len p.val

/-- The next-phase table (R78): the phase after a command word and the fault it takes, if any. `full` is
`LEN = LEN_MAX`. -/
def phaseTable (d : Decoded) (p : Phase) (full : Bool) : Phase × Option FaultCode :=
  match d, p with
  | .reserved _, _ => (.fault, some .illegalCommand)
  | .legal .init, _ => (.absorb, none)
  | .legal .stat, p => (p, none)
  | .legal (.push _), .absorb => if full then (.fault, some .lengthOverflow) else (.absorb, none)
  | .legal (.push _), _ => (.fault, some .protocolError)
  | .legal .final, .absorb => (.done, none)
  | .legal .final, _ => (.fault, some .protocolError)
  | .legal (.rdw _), .done => (.done, none)
  | .legal (.rdw _), _ => (.fault, some .protocolError)
  | .legal (.rdb _), .done => (.done, none)
  | .legal (.rdb _), _ => (.fault, some .protocolError)
  | .legal (.rdhex _), .done => (.done, none)
  | .legal (.rdhex _), _ => (.fault, some .protocolError)

/-- The words a host sends for one complete message (R99): `INIT`, one `PUSH` per byte, `FINAL`. -/
def transactionWords (M : List Byte) : List CmdWord :=
  encode .init :: M.map (fun b => encode (.push b)) ++ [encode .final]

end Sys2Proof.Machine
end

