-- ==== Sys2Proof/Certificates/Slice0/Obligations.lean ====
section
/-! DEFINITION. The statements for the provers. Each docstring says which rule of the spec it formalises; OBLIGATIONS.json
lists them. -/

open Sys2Proof Sys2Proof.Machine

/-! ## Encoding (30_encoding.md) -/

/-- R74, R80: decoding an encoded legal command gives it back, and every legal word is the encoding of the command it
decodes to, with every operand the encoding admits. -/
def Obligations.DecodeAndEncodeAgree : Prop :=
  (∀ i : Instr, i.wf = true → decode (encode i) = .legal i) ∧
  (∀ (cw : CmdWord) (i : Instr), decode cw = .legal i → i.wf = true ∧ encode i = cw)

/-- R74: a word of each row, written out bit by bit from the encoding pattern, is that row's command; the two corner
words of R76 are reserved. A sanity statement. -/
def Obligations.PatternWordsDecode : Prop :=
  decode 0b0001000000000000#16 = .legal .init ∧
  decode 0b0010000001100001#16 = .legal (.push 0x61) ∧
  decode 0b0011000000000000#16 = .legal .final ∧
  decode 0b0100000000000100#16 = .legal (.rdw 4) ∧
  decode 0b0101000000010011#16 = .legal (.rdb 19) ∧
  decode 0b0110000000100111#16 = .legal (.rdhex 39) ∧
  decode 0b0111000000000000#16 = .legal .stat ∧
  decode 0x0000#16 = .reserved .opZero ∧
  decode 0xFFFF#16 = .reserved .opHigh

/-- R74: a word is a command exactly when it has the row's shape under its mask and its `arg` is in the legal range;
and the legal words number 324. -/
def Obligations.RowIsMaskMatchAndRange : Prop :=
  (∀ cw : CmdWord,
    (decode cw = .legal .init ↔ cw &&& 0xFFFF#16 = 0x1000#16 ∧ cw.extractLsb' 0 8 = 0#8) ∧
    (∀ b, decode cw = .legal (.push b) ↔ cw &&& 0xFF00#16 = 0x2000#16 ∧ cw.extractLsb' 0 8 = b) ∧
    (decode cw = .legal .final ↔ cw &&& 0xFFFF#16 = 0x3000#16 ∧ cw.extractLsb' 0 8 = 0#8) ∧
    (∀ i, decode cw = .legal (.rdw i) ↔
      cw &&& 0xFFF8#16 = 0x4000#16 ∧ cw.extractLsb' 0 8 = i ∧ i.toNat ≤ 4) ∧
    (∀ j, decode cw = .legal (.rdb j) ↔
      cw &&& 0xFFE0#16 = 0x5000#16 ∧ cw.extractLsb' 0 8 = j ∧ j.toNat ≤ 19) ∧
    (∀ k, decode cw = .legal (.rdhex k) ↔
      cw &&& 0xFFC0#16 = 0x6000#16 ∧ cw.extractLsb' 0 8 = k ∧ k.toNat ≤ 39) ∧
    (decode cw = .legal .stat ↔ cw &&& 0xFFFF#16 = 0x7000#16 ∧ cw.extractLsb' 0 8 = 0#8)) ∧
  ∃ L : List CmdWord, L.Nodup ∧ L.length = 1 + 256 + 1 + 5 + 20 + 40 + 1 ∧
    ∀ cw, cw ∈ L ↔ ∃ i, decode cw = .legal i

/-- R76: the reserved words are the words that are no legal command, and exactly the five classes; executing one raises
IllegalCommand in every phase. -/
def Obligations.ReservedWordsAreTheFiveClasses : Prop :=
  ∀ cw : CmdWord,
    ((∃ r, decode cw = .reserved r) ↔ ¬ ∃ i, decode cw = .legal i) ∧
    ((∃ r, decode cw = .reserved r) ↔
      (cw.extractLsb' 12 4 = 0x0#4 ∨
       8 ≤ (cw.extractLsb' 12 4).toNat ∨
       (1 ≤ (cw.extractLsb' 12 4).toNat ∧ (cw.extractLsb' 12 4).toNat ≤ 7 ∧ cw.extractLsb' 8 4 ≠ 0#4) ∨
       ((cw.extractLsb' 12 4 = 0x1#4 ∨ cw.extractLsb' 12 4 = 0x3#4 ∨ cw.extractLsb' 12 4 = 0x7#4) ∧
          cw.extractLsb' 0 8 ≠ 0#8) ∨
       (cw.extractLsb' 12 4 = 0x4#4 ∧ 4 < (cw.extractLsb' 0 8).toNat) ∨
       (cw.extractLsb' 12 4 = 0x5#4 ∧ 19 < (cw.extractLsb' 0 8).toNat) ∨
       (cw.extractLsb' 12 4 = 0x6#4 ∧ 39 < (cw.extractLsb' 0 8).toNat))) ∧
    (∀ (r : Reserved) (s : State) (rest : List HostEvent), decode cw = .reserved r → s.port = .command cw :: rest →
      ∃ t, step s = .next t ∧ t.phase = .fault ∧ t.response = some ⟨true, 1⟩ ∧
        t = { s with port := rest, err := t.err, badcmd := t.badcmd, phase := .fault, response := t.response } ∧
        (s.phase ≠ .fault → t.err = some .illegalCommand ∧ t.badcmd = cw) ∧
        (s.phase = .fault → t.err = s.err ∧ t.badcmd = s.badcmd))

/-! ## The step (R71, R77, R183, R190) -/

/-- R71, R77: when the host presents a word that decodes to `i`, the step is `exec i` with the word taken off the port.
The port is the model's own field (log entry 2). -/
def Obligations.StepRunsTheDecodedCommand : Prop :=
  (∀ (s : State) (cw : CmdWord) (rest : List HostEvent) (i : Instr),
    s.port = .command cw :: rest → decode cw = .legal i → step s = exec i { s with port := rest }) ∧
  (∀ (s : State) (i : Instr), i.wf = true → step (s.withFetchWord 16 (encode i).toNat) = exec i s)

/-- R183: with nothing presented the core is idle and all its state survives. That an idle step is a step is the
model's choice (log entry 2). -/
def Obligations.IdleStepKeepsAllState : Prop :=
  ∀ s : State, s.port = [] → step s = .next s

/-- R35, R190: what reset leaves in the control state, at power-on and applied to any state between two commands.
That no response is pending then is the model's choice (log entry 3). -/
def Obligations.ResetLeavesTheControlState : Prop :=
  (State.reset.phase = .idle ∧ State.reset.err = none ∧ State.reset.badcmd = 0 ∧ State.reset.fill = 0 ∧
    State.reset.len = 0 ∧ State.reset.status = 0x00000000#32) ∧
  (∀ (s : State) (rest : List HostEvent), s.port = .reset :: rest →
    ∃ t, step s = .next t ∧ t.phase = .idle ∧ t.err = none ∧ t.badcmd = 0 ∧ t.fill = 0 ∧ t.len = 0 ∧
      t.status = 0x00000000#32 ∧ t.lenBits = s.lenBits ∧ t.port = rest ∧ t.response = none)

/-! ## Commands: result, frame and completion -/

/-- R93: `INIT` in every phase, its whole effect and frame, the status word after it, its one word, and that every other
word with `op = 1` is reserved. -/
def Obligations.InitOpensTransaction : Prop :=
  (∀ s : State, exec .init s = .next { s with
    h := ⟨0x67452301, 0xEFCDAB89, 0x98BADCFE, 0x10325476, 0xC3D2E1F0⟩, len := 0, fill := 0, err := none,
    badcmd := 0x0000, phase := .absorb, response := some ⟨false, 0⟩ }) ∧
  (∀ s : State, ∃ t, exec .init s = .next t ∧ t.status = 0x00000001#32) ∧
  decode 0x1000#16 = .legal .init ∧
  (∀ cw : CmdWord, cw.extractLsb' 12 4 = 0x1#4 → cw ≠ 0x1000#16 → ∃ r, decode cw = .reserved r)

/-- R94: `PUSH b`. In `ABSORB` below `LEN_MAX` it stores exactly the byte at `FILL` and counts it, and when that byte
completes the block the block is compressed; its frame; the two faults; and its word. `FILL <= 63` is what R25 says of
every command boundary (`ControlInvariantKept`). That `W` and `WR` still hold the block's schedule and registers when the
command ends is R138's sentence and the model's choice (log entry 7): R36 fixes no value there. -/
def Obligations.PushAbsorbsOneByte : Prop :=
  ∀ (b : Byte) (s : State),
    (s.phase = .absorb → s.len ≠ s.lenMax → s.fill ≤ 63 →
      ∃ t, exec (.push b) s = .next t ∧
        (∀ p, memRead1 t.blk p = if p = s.fill then b else memRead1 s.blk p) ∧
        (s.fill < 63 → t = { s with
          blk := t.blk, fill := s.fill + 1, len := s.len + 1, response := some ⟨false, 0⟩ }) ∧
        (s.fill = 63 → t.h = compressBlock s.h t.blk ∧ t.w.toList = schedule t.blk ∧
          t.wr = rounds s.h (schedule t.blk) ∧ t = { s with
          h := t.h, wr := t.wr, w := t.w, blk := t.blk, fill := 0, len := s.len + 1, response := some ⟨false, 0⟩ })) ∧
    (s.phase = .absorb → s.len = s.lenMax → exec (.push b) s = .next { s with
      err := some .lengthOverflow, badcmd := 0x2000#16 + b.zeroExtend 16, phase := .fault,
      response := some ⟨true, 3⟩ }) ∧
    (s.phase ≠ .absorb → exec (.push b) s = .next (s.faultEntry .protocolError (0x2000#16 + b.zeroExtend 16))) ∧
    decode (0x2000#16 + b.zeroExtend 16) = .legal (.push b)

/-- R95, with the layout of R100's table, which the spec marks as derived: `FINAL`. In `ABSORB` it pads and compresses one block when at most 55 bytes are in the buffer, two when 56 to
63 are, and closes the transaction; its frame; its one fault; its word; and that in
`DONE` no command but `INIT` changes `H` afterwards. `FILL <= 63` is the rule's own condition. That `BLK`, `W` and `WR`
still hold the last block, its schedule and its registers when the command ends is R138's sentence and the model's choice
(log entry 7): R36 and R201 fix no value there. -/
def Obligations.FinalPadsAndCloses : Prop :=
  ∀ s : State,
    (s.phase = .absorb → s.fill ≤ 63 →
      ∃ t, exec .final s = .next t ∧
        (s.fill ≤ 55 → t.blk = lastBlock s.blk s.fill s.len ∧
          t.h = compressBlock s.h (lastBlock s.blk s.fill s.len) ∧ t.wr = rounds s.h (schedule t.blk)) ∧
        (56 ≤ s.fill → t.blk = lengthBlock s.len ∧
          t.h = compressBlock (compressBlock s.h (earlyBlock s.blk s.fill)) (lengthBlock s.len) ∧
          t.wr = rounds (compressBlock s.h (earlyBlock s.blk s.fill)) (schedule t.blk)) ∧
        t.w.toList = schedule t.blk ∧
        t = { s with h := t.h, wr := t.wr, w := t.w, blk := t.blk, fill := 0, phase := .done,
                     response := some ⟨false, 0⟩ }) ∧
    (s.phase ≠ .absorb → exec .final s = .next (s.faultEntry .protocolError 0x3000#16)) ∧
    decode 0x3000#16 = .legal .final ∧
    (∀ (i : Instr) (t : State), s.phase = .done → i ≠ .init → exec i s = .next t → t.h = s.h)

/-- R153: `RDW i` responds `H[i]` in `DONE`, writes no state, its two faults, and its words. -/
def Obligations.RdwAnswersDigestWord : Prop :=
  ∀ (i : Byte) (s : State),
    (i.toNat ≤ 4 → s.phase = .done → ∃ v, [s.h.a, s.h.b, s.h.c, s.h.d, s.h.e][i.toNat]? = some v ∧
      exec (.rdw i) s = .next { s with response := some ⟨false, v⟩ }) ∧
    (4 < i.toNat → exec (.rdw i) s = .next (s.faultEntry .illegalCommand (0x4000#16 + i.zeroExtend 16))) ∧
    (i.toNat ≤ 4 → s.phase ≠ .done →
      exec (.rdw i) s = .next (s.faultEntry .protocolError (0x4000#16 + i.zeroExtend 16))) ∧
    (i.toNat ≤ 4 → decode (0x4000#16 + i.zeroExtend 16) = .legal (.rdw i))

/-- R154: `RDB j` responds, in `DONE`, bits `[31 - 8*m : 24 - 8*m]` of `H[j div 4]`, `m = j mod 4`, zero-extended, which
is byte `j` of `toBytes(H)`; its frame, its two faults, and its words. -/
def Obligations.RdbAnswersDigestByte : Prop :=
  ∀ (j : Byte) (s : State),
    (j.toNat ≤ 19 → s.phase = .done → ∃ w v, [s.h.a, s.h.b, s.h.c, s.h.d, s.h.e][j.toNat / 4]? = some w ∧
      v = w.extractLsb' (24 - 8 * (j.toNat % 4)) 8 ∧ (toBytes s.h)[j.toNat]? = some v ∧
      exec (.rdb j) s = .next { s with response := some ⟨false, v.zeroExtend 32⟩ }) ∧
    (19 < j.toNat → exec (.rdb j) s = .next (s.faultEntry .illegalCommand (0x5000#16 + j.zeroExtend 16))) ∧
    (j.toNat ≤ 19 → s.phase ≠ .done →
      exec (.rdb j) s = .next (s.faultEntry .protocolError (0x5000#16 + j.zeroExtend 16))) ∧
    (j.toNat ≤ 19 → decode (0x5000#16 + j.zeroExtend 16) = .legal (.rdb j))

/-- R155: `RDHEX k` responds, in `DONE`, the hexadecimal digit of bits `[31 - 4*n : 28 - 4*n]` of `H[k div 8]`,
`n = k mod 8`, zero-extended, which is character `k` of `toHex(H)` and a lowercase digit's code; its frame, its two
faults, and its words. -/
def Obligations.RdhexAnswersDigestCharacter : Prop :=
  ∀ (k : Byte) (s : State),
    (k.toNat ≤ 39 → s.phase = .done → ∃ w v, [s.h.a, s.h.b, s.h.c, s.h.d, s.h.e][k.toNat / 8]? = some w ∧
      v = hexdigit (w.extractLsb' (28 - 4 * (k.toNat % 8)) 4) ∧ (toHex s.h)[k.toNat]? = some v ∧
      ((0x30 ≤ v.toNat ∧ v.toNat ≤ 0x39) ∨ (0x61 ≤ v.toNat ∧ v.toNat ≤ 0x66)) ∧
      exec (.rdhex k) s = .next { s with response := some ⟨false, v.zeroExtend 32⟩ }) ∧
    (39 < k.toNat → exec (.rdhex k) s = .next (s.faultEntry .illegalCommand (0x6000#16 + k.zeroExtend 16))) ∧
    (k.toNat ≤ 39 → s.phase ≠ .done →
      exec (.rdhex k) s = .next (s.faultEntry .protocolError (0x6000#16 + k.zeroExtend 16))) ∧
    (k.toNat ≤ 39 → decode (0x6000#16 + k.zeroExtend 16) = .legal (.rdhex k))

/-- R157: `STAT` responds the status word of R30 in every phase and writes no state; the word's fields, bit for bit; its
one word, and that every other word with `op = 7` is reserved. -/
def Obligations.StatAnswersStatus : Prop :=
  (∀ s : State, ∃ v : Word,
    exec .stat s = .next { s with response := some ⟨false, v⟩ } ∧
    v.extractLsb' 0 2 = (match s.phase with | .idle => 0#2 | .absorb => 1#2 | .done => 2#2 | .fault => 3#2) ∧
    v.extractLsb' 2 2 = 0#2 ∧
    v.extractLsb' 4 4 = (match s.err with
      | none => 0#4 | some .illegalCommand => 1#4 | some .protocolError => 2#4 | some .lengthOverflow => 3#4) ∧
    v.extractLsb' 8 6 = BitVec.ofNat 6 s.fill ∧
    v.extractLsb' 14 2 = 0#2 ∧
    v.extractLsb' 16 16 = s.badcmd) ∧
  decode 0x7000#16 = .legal .stat ∧
  (∀ cw : CmdWord, cw.extractLsb' 12 4 = 0x7#4 → cw ≠ 0x7000#16 → ∃ r, decode cw = .reserved r)

/-! ## Faults (60_exceptions.md) -/

/-- R170: fault entry records the first fault only, sets `PHASE`, responds `(1, code)`, and writes nothing else. -/
def Obligations.FaultEntryRecordsTheFirstFault : Prop :=
  ∀ (s : State) (code : FaultCode) (cw : CmdWord) (n : Word),
    n = (match code with | .illegalCommand => 1 | .protocolError => 2 | .lengthOverflow => 3) →
    (s.phase ≠ .fault → raise code cw s = .next { s with
      err := some code, badcmd := cw, phase := .fault, response := some ⟨true, n⟩ }) ∧
    (s.phase = .fault → raise code cw s = .next { s with response := some ⟨true, n⟩ })

/-- R172, which the spec marks as derived: a command that faults has had no effect but fault entry: every register, the buffer, the counters and the
rest of the port are as before. -/
def Obligations.FaultingCommandChangesNothingElse : Prop :=
  ∀ (s t : State) (cw : CmdWord) (rest : List HostEvent) (d : Word),
    s.port = .command cw :: rest → step s = .next t → t.response = some ⟨true, d⟩ →
    t = { s with port := rest, err := t.err, badcmd := t.badcmd, phase := .fault, response := some ⟨true, d⟩ } ∧
    (s.phase ≠ .fault → t.badcmd = cw ∧ ∃ c : FaultCode, t.err = some c ∧ d = c.data) ∧
    (s.phase = .fault → t.err = s.err ∧ t.badcmd = s.badcmd)

/-- R78: the complete next-phase table, with the fault each entry `F(n)` takes. `FILL <= 63` is what R25 says of every
command boundary (`ControlInvariantKept`). -/
def Obligations.NextPhaseTable : Prop :=
  ∀ (s : State) (cw : CmdWord) (rest : List HostEvent), s.port = .command cw :: rest → s.fill ≤ 63 →
    ∃ t r, step s = .next t ∧ t.response = some r ∧
      t.phase = (phaseTable (decode cw) s.phase (decide (s.len = s.lenMax))).1 ∧
      (match (phaseTable (decode cw) s.phase (decide (s.len = s.lenMax))).2 with
       | none => r.fault = false
       | some c => r = ⟨true, c.data⟩)

/-- R174: in phase `FAULT` every word but `INIT`'s and `STAT`'s faults again with its own code, the first record stays,
and the phase stays; `STAT` leaves the phase too; `INIT` leaves it (R173). -/
def Obligations.OnlyInitLeavesFault : Prop :=
  ∀ (s : State) (cw : CmdWord) (rest : List HostEvent), s.phase = .fault → s.port = .command cw :: rest →
    ∃ t, step s = .next t ∧
      (cw ≠ 0x1000#16 → t.phase = .fault ∧ t.err = s.err ∧ t.badcmd = s.badcmd) ∧
      (cw ≠ 0x1000#16 → cw ≠ 0x7000#16 → (∃ r, decode cw = .reserved r) → t.response = some ⟨true, 1⟩) ∧
      (cw ≠ 0x1000#16 → cw ≠ 0x7000#16 → (∃ i, decode cw = .legal i) → t.response = some ⟨true, 2⟩) ∧
      (cw = 0x1000#16 → t.phase = .absorb ∧ t.err = none ∧ t.badcmd = 0 ∧ t.response = some ⟨false, 0⟩)

/-- The model's own stops (log entry 5): no command is ever refused, and one faults exactly when it would store a byte
beyond `BLK[63]`, which R25 excludes at every command boundary. -/
def Obligations.CommandsStopOnlyBeyondTheBuffer : Prop :=
  ∀ (i : Instr) (s : State),
    (∀ r, exec i s ≠ .refused r) ∧
    ((∃ r, exec i s = .fault r) ↔
      (s.phase = .absorb ∧ 63 < s.fill ∧ (i = .final ∨ (∃ b, i = .push b) ∧ s.len ≠ s.lenMax)))

/-! ## Invariants and whole-machine rules -/

/-- R25, R27, R28, R29: the control invariant is kept by every step. -/
def Obligations.ControlInvariantKept : Prop :=
  ∀ s t : State, ControlInv s → step s = .next t → ControlInv t

/-- The control invariant and the soundness of the fault record hold after reset, for every instance. -/
def Obligations.ControlInvariantAtReset : Prop :=
  ∀ n : LenBits, ControlInv (State.resetFor n) ∧ FaultRecordSound (State.resetFor n)

/-- R71: the step is total: from every state that meets the control invariant every event, every command word among
them, has a next state. -/
def Obligations.StepIsTotal : Prop :=
  ∀ s : State, ControlInv s → ∃ t, step s = .next t

/-- R28, R166: the recorded word always explains the recorded fault; every step keeps that. -/
def Obligations.FaultRecordSoundKept : Prop :=
  ∀ s t : State, FaultRecordSound s → step s = .next t → FaultRecordSound t

/-- R140: in phase `DONE` no command word but `INIT`'s changes `H`. -/
def Obligations.FinalDigestIsImmutable : Prop :=
  ∀ (s t : State) (cw : CmdWord) (rest : List HostEvent),
    s.phase = .done → s.port = .command cw :: rest → cw ≠ 0x1000#16 → step s = .next t → t.h = s.h

/-- R21, R136: a command changes `H` only if it is `INIT`, which loads `IV`, or if it accumulates: the `PUSH` in `ABSORB`
that completes a block, or a `FINAL` in `ABSORB`; then `H` is the chaining value before its last `COMPRESS` plus the
working registers. That these are still the `WR` of the state after the command is the model's choice (log entry 7): R36
fixes no value there. -/
def Obligations.DigestWrittenOnlyByInitAndAccum : Prop :=
  ∀ (s t : State) (cw : CmdWord) (rest : List HostEvent), s.port = .command cw :: rest → step s = .next t →
    t.h ≠ s.h →
    (decode cw = .legal .init ∧ t.h = iv) ∨
    ((∃ b, decode cw = .legal (.push b)) ∧ s.phase = .absorb ∧ s.fill = 63 ∧ t.h = s.h.add t.wr) ∨
    (decode cw = .legal .final ∧ s.phase = .absorb ∧
      t.h = (if s.fill ≤ 55 then s.h else compressBlock s.h (earlyBlock s.blk s.fill)).add t.wr)

/-- R6, R7: the instance's parameter is fixed: no step changes it. -/
def Obligations.InstanceParameterNeverChanges : Prop :=
  ∀ s t : State, step s = .next t → t.lenBits = s.lenBits

/-- R36, R35: no result depends on an unspecified value. Two states that agree on everything the spec defines, and may
differ in `A..E`, `W`, `BLK[FILL..63]` and, outside `ABSORB` and `DONE`, in `H`, step to states that agree again, with
the same response. -/
def Obligations.NoResultDependsOnUnspecifiedState : Prop :=
  ∀ s s' : State, Agree s s' → s.fill ≤ 63 →
    ∃ t t', step s = .next t ∧ step s' = .next t' ∧ Agree t t'

/-! ## Micro-operations and functions -/

/-- R11: `rotl32` is the shift-and-or of the rule, and is the rotation the glossary describes: bit `i` of the result
is bit `i - n` of the word, counted modulo 32. -/
def Obligations.RotationWraps : Prop :=
  ∀ (x : Word) (n : Nat), 0 < n → n < 32 →
    (rotl32 x n).toNat = ((x.toNat * 2 ^ n) % 2 ^ 32) ||| (x.toNat / 2 ^ (32 - n)) ∧
    (∀ i, i < 32 → (rotl32 x n).getLsbD i = x.getLsbD ((i + 32 - n) % 32))

/-- R12: big-endian packing: the value of `be32`, that `bytes_be32` is its inverse, and the bytes of `bytes_be32` and of
`bytes_be64`, the most significant first. -/
def Obligations.BigEndianPacking : Prop :=
  (∀ b0 b1 b2 b3 : Byte,
    (be32 b0 b1 b2 b3).toNat = b0.toNat * 2 ^ 24 + b1.toNat * 2 ^ 16 + b2.toNat * 2 ^ 8 + b3.toNat ∧
    bytesBe32 (be32 b0 b1 b2 b3) = [b0, b1, b2, b3]) ∧
  (∀ w : Word, (bytesBe32 w).length = 4 ∧
    ∀ m, m < 4 → ((bytesBe32 w).getD m 0).toNat = w.toNat / 256 ^ (3 - m) % 256) ∧
  (∀ v : BitVec 64, (bytesBe64 v).length = 8 ∧
    ∀ m, m < 8 → ((bytesBe64 v).getD m 0).toNat = v.toNat / 256 ^ (7 - m) % 256)

/-- R53, R54: the one-byte read is the byte, the word read is the big-endian word of its four bytes; the one-byte write
changes exactly its byte and the 8-byte write exactly its eight bytes, most significant first; nothing else changes. -/
def Obligations.BlockBufferAccess : Prop :=
  (∀ (blk : Block) (p : Nat) (h : p < 64), memRead1 blk p = blk[p]) ∧
  (∀ (blk : Block) (p : Nat), p + 4 ≤ 64 → (memRead4 blk p).toNat = (memRead1 blk p).toNat * 2 ^ 24 +
    (memRead1 blk (p + 1)).toNat * 2 ^ 16 + (memRead1 blk (p + 2)).toNat * 2 ^ 8 + (memRead1 blk (p + 3)).toNat) ∧
  (∀ (blk : Block) (p : Nat) (b : Byte), p < 64 →
    ∀ q, memRead1 (memWrite1 blk p b) q = if q = p then b else memRead1 blk q) ∧
  ∀ (blk : Block) (p : Nat) (v : BitVec 64), p + 8 ≤ 64 →
    (∀ q, memRead1 (memWrite8 blk p v) q =
      if p ≤ q ∧ q < p + 8 then BitVec.ofNat 8 (v.toNat / 256 ^ (p + 7 - q)) else memRead1 blk q) ∧
    (memRead4 (memWrite8 blk p v) p).toNat = v.toNat / 2 ^ 32 ∧
    (memRead4 (memWrite8 blk p v) (p + 4)).toNat = v.toNat % 2 ^ 32

/-- R91, R92: `APPEND(b)` and `PADMARK` write the byte at `FILL` and no other; only `APPEND` counts it. -/
def Obligations.AppendAndMarkWriteOneByte : Prop :=
  ∀ (s : State) (b : Byte), s.fill ≤ 63 →
    append s b = { s with blk := (append s b).blk, fill := s.fill + 1, len := s.len + 1 } ∧
    (∀ p, memRead1 (append s b).blk p = if p = s.fill then b else memRead1 s.blk p) ∧
    padMark s = { s with blk := (padMark s).blk, fill := s.fill + 1 } ∧
    (∀ p, memRead1 (padMark s).blk p = if p = s.fill then 0x80 else memRead1 s.blk p)

/-- R96: `PADZERO(limit)` zeroes exactly `BLK[FILL .. limit-1]` and leaves `FILL` at `limit`, or does nothing when
`FILL >= limit`. -/
def Obligations.PadZeroFillsToTheLimit : Prop :=
  ∀ (s : State) (limit : Nat), limit = 56 ∨ limit = 64 → s.fill ≤ 64 →
    padZero s limit = { s with blk := (padZero s limit).blk, fill := max s.fill limit } ∧
    (∀ p, memRead1 (padZero s limit).blk p = if s.fill ≤ p ∧ p < limit then 0x00 else memRead1 s.blk p)

/-- R97: `PADLEN` writes the bit length, 8 times `LEN`, as 64 bits big-endian at offsets 56..63, untruncated for every
length the instance accepts, and sets `FILL` to 64. -/
def Obligations.PadLenWritesTheBitLength : Prop :=
  ∀ s : State, s.len ≤ s.lenMax →
    padLen s = { s with blk := (padLen s).blk, fill := 64 } ∧
    (∀ p, memRead1 (padLen s).blk p = if 56 ≤ p ∧ p < 64 then lengthByte s.len p else memRead1 s.blk p) ∧
    (memRead4 (padLen s).blk 56).toNat * 2 ^ 32 + (memRead4 (padLen s).blk 60).toNat = s.len * 8

/-- R111, R112: `LOADW` writes `W[0..15]`, each the big-endian word of its four bytes of `BLK`, and `EXPAND(t)` writes
`W[t]`, the rotated exclusive or of four earlier words; neither writes anything else. -/
def Obligations.LoadAndExpandWriteTheirWords : Prop :=
  (∀ s : State, loadW s = { s with w := (loadW s).w } ∧
    (∀ j, j < 16 → (wordAt (loadW s).w j).toNat = (memRead1 s.blk (4 * j)).toNat * 2 ^ 24 +
      (memRead1 s.blk (4 * j + 1)).toNat * 2 ^ 16 + (memRead1 s.blk (4 * j + 2)).toNat * 2 ^ 8 +
      (memRead1 s.blk (4 * j + 3)).toNat) ∧
    (∀ t, 16 ≤ t → wordAt (loadW s).w t = wordAt s.w t)) ∧
  (∀ (w : Vector Word 80) (t : Nat), 16 ≤ t → t < 80 → ∀ u, wordAt (expand w t) u =
    if u = t then rotl32 (wordAt w (t - 3) ^^^ wordAt w (t - 8) ^^^ wordAt w (t - 14) ^^^ wordAt w (t - 16)) 1
    else wordAt w u)

/-- R113, and R114's last sentence, which the spec marks as derived: after `LOADW` and the 64 `EXPAND`s, `W` satisfies the
recurrence of `Schedule` on the block in `BLK`, is `Schedule(BLK)`, and nothing but `W` has changed. -/
def Obligations.ScheduleIsExpanded : Prop :=
  ∀ s : State,
    expandAll (loadW s) = { s with w := (expandAll (loadW s)).w } ∧
    (∀ j, j < 16 → wordAt (expandAll (loadW s)).w j = be32 (memRead1 s.blk (4 * j)) (memRead1 s.blk (4 * j + 1))
      (memRead1 s.blk (4 * j + 2)) (memRead1 s.blk (4 * j + 3))) ∧
    (∀ t, 16 ≤ t → t < 80 → wordAt (expandAll (loadW s)).w t =
      rotl32 (wordAt (expandAll (loadW s)).w (t - 3) ^^^ wordAt (expandAll (loadW s)).w (t - 8) ^^^
        wordAt (expandAll (loadW s)).w (t - 14) ^^^ wordAt (expandAll (loadW s)).w (t - 16)) 1) ∧
    (expandAll (loadW s)).w.toList = schedule s.blk

/-- R122: the function and the constant of every round, by its stage. -/
def Obligations.StageSelection : Prop :=
  ∀ (t : Nat) (b c d : Word),
    (t < 20 → roundF t b c d = (b &&& c) ||| (~~~b &&& d) ∧ roundK t = 0x5A827999) ∧
    (20 ≤ t → t < 40 → roundF t b c d = b ^^^ c ^^^ d ∧ roundK t = 0x6ED9EBA1) ∧
    (40 ≤ t → t < 60 → roundF t b c d = (b &&& c) ||| (b &&& d) ||| (c &&& d) ∧ roundK t = 0x8F1BBCDC) ∧
    (60 ≤ t → t < 80 → roundF t b c d = b ^^^ c ^^^ d ∧ roundK t = 0xCA62C1D6)

/-- R123, which the spec marks as derived: the three functions bit by bit: `Ch` chooses, `Parity` adds, `Maj` takes the majority. -/
def Obligations.RoundFunctionsBitByBit : Prop :=
  ∀ (b c d : Word) (i : Nat), i < 32 →
    (ch b c d).getLsbD i = (if b.getLsbD i then c.getLsbD i else d.getLsbD i) ∧
    (parity b c d).getLsbD i = ((b.getLsbD i != c.getLsbD i) != d.getLsbD i) ∧
    (maj b c d).getLsbD i = decide (2 ≤ (b.getLsbD i).toNat + (c.getLsbD i).toNat + (d.getLsbD i).toNat)

/-- R121, R124: `SEED` copies `H` to `WR` and writes nothing else; `ROUND(t)`, executed line by line, is the function
`Round` on the 5-tuple from before the round, the sum taken modulo 2^32. -/
def Obligations.SeedAndRoundWriteWorkingRegisters : Prop :=
  (∀ s : State, seed s = { s with wr := s.h }) ∧
  ∀ (w : Vector Word 80) (r : Words5) (t : Nat), t < 80 →
    roundOp w r t = roundFn t r (wordAt w t) ∧
    roundOp w r t = ⟨(roundOp w r t).a, r.a, rotl32 r.b 30, r.c, r.d⟩ ∧
    (roundOp w r t).a.toNat = ((rotl32 r.a 5).toNat + (roundF t r.b r.c r.d).toNat + r.e.toNat +
      (roundK t).toNat + (wordAt w t).toNat) % 2 ^ 32

/-- R136: `ACCUM` adds word by word modulo 2^32, no carry between words, and writes `H` alone. -/
def Obligations.AccumAddsWordByWord : Prop :=
  ∀ s : State, accum s = { s with h := (accum s).h } ∧
    (∀ i : Fin 5, ((accum s).h.get i).toNat = ((s.h.get i).toNat + (s.wr.get i).toNat) % 2 ^ 32)

/-- R138: `COMPRESS` on any state: `H` becomes `CompressBlock(H, BLK)`, that is `H` plus the 80 rounds
seeded from `H` over the schedule of `BLK`, `W` and `WR` hold that schedule and those registers, `FILL` is 0, and
nothing else has changed. -/
def Obligations.CompressIsCompressBlock : Prop :=
  ∀ s : State,
    compress s = { s with h := (compress s).h, wr := (compress s).wr, w := (compress s).w, fill := 0 } ∧
    (compress s).w.toList = schedule s.blk ∧
    (compress s).wr = rounds s.h (schedule s.blk) ∧
    (compress s).h = s.h.add (rounds s.h (schedule s.blk)) ∧
    (compress s).h = compressBlock s.h s.blk

/-- R90: the Framer's contract for `Pad`. The blocks in order are the message, one `0x80`, the least number of zero bytes that brings
the length to 56 modulo 64, and 8 length bytes whose value is exactly `8 * L`; there are `ceil((L+9)/64)` blocks. -/
def Obligations.PadMeetsTheFramerContract : Prop :=
  ∀ M : List Byte, M.length < 2 ^ 61 →
    (pad M).length = (M.length + 9 + 63) / 64 ∧
    ∃ z, z < 64 ∧ (M.length + 1 + z) % 64 = 56 ∧
      (pad M).flatMap Vector.toList =
        M ++ [0x80] ++ List.replicate z 0x00 ++ bytesBe64 (BitVec.ofNat 64 (8 * M.length)) ∧
      (BitVec.ofNat 64 (8 * M.length)).toNat = 8 * M.length

/-! ## The hash transaction (R99): the commands compute `Hash` -/

/-- R93, and R99, which the spec marks as derived: `INIT` in any state opens a transaction that has absorbed the empty message. -/
def Obligations.InitAbsorbsTheEmptyMessage : Prop :=
  ∀ s : State, ∃ t, exec .init s = .next t ∧ Absorbing [] t

/-- R94, and R65, whose last sentence the spec marks as derived: in a transaction that has absorbed `M`, shorter than
`LEN_MAX`, `PUSH b` completes without fault and the transaction has then absorbed `M` followed by `b`. -/
def Obligations.PushExtendsTheMessage : Prop :=
  ∀ (M : List Byte) (b : Byte) (s : State), Absorbing M s → M.length < s.lenMax →
    ∃ t, exec (.push b) s = .next t ∧ t.response = some ⟨false, 0⟩ ∧ Absorbing (M ++ [b]) t

/-- R95, and R99, which the spec marks as derived: in a transaction that has absorbed `M`, `FINAL` leaves `Hash(M)` in `H` in phase `DONE`. -/
def Obligations.FinalProducesTheHash : Prop :=
  ∀ (M : List Byte) (s : State), Absorbing M s → M.length ≤ s.lenMax →
    ∃ t, exec .final s = .next t ∧ t.response = some ⟨false, 0⟩ ∧ t.phase = .done ∧ t.h = hashMessage M ∧
      t.len = M.length ∧ t.fill = 0 ∧ t.err = none

/-- R99, which the spec marks as derived, and R2: from any state, the commands `INIT`, one `PUSH` per byte of any message the instance accepts, `FINAL`, all
complete without fault and end in `DONE` with `H = Hash(M)`. -/
def Obligations.TransactionComputesHash : Prop :=
  ∀ (M : List Byte) (s : State) (rest : List HostEvent), M.length ≤ s.lenMax →
    s.port = (transactionWords M).map HostEvent.command ++ rest →
    (∀ k, k < M.length + 2 → ∃ u, Sys2Proof.core.run (k + 1) s = .next u ∧ u.response = some ⟨false, 0⟩) ∧
    ∃ t, Sys2Proof.core.run (M.length + 2) s = .next t ∧ t.phase = .done ∧ t.h = hashMessage M ∧
      t.len = M.length ∧ t.fill = 0 ∧ t.err = none ∧ t.badcmd = 0 ∧ t.port = rest

/-! ## Read-out (44_readout.md) -/

/-- R156, read through the commands: in `DONE`, for `j = 0..19`, `RDHEX 2j` and `RDHEX 2j+1` answer the hexadecimal digits of the high and the low
nibble of what `RDB j` answers. -/
def Obligations.HexIsTheHexOfTheBytes : Prop :=
  ∀ (s : State) (j : Nat), j ≤ 19 → s.phase = .done →
    ∃ d : Byte,
      exec (.rdb (BitVec.ofNat 8 j)) s = .next { s with response := some ⟨false, d.zeroExtend 32⟩ } ∧
      exec (.rdhex (BitVec.ofNat 8 (2 * j))) s = .next { s with
        response := some ⟨false, (hexdigit (d.extractLsb' 4 4)).zeroExtend 32⟩ } ∧
      exec (.rdhex (BitVec.ofNat 8 (2 * j + 1))) s = .next { s with
        response := some ⟨false, (hexdigit (d.extractLsb' 0 4)).zeroExtend 32⟩ }

/-- R152, with R15's digits: `toHex` of any digest state has exactly 40 characters, character `8*i + n` the lowercase
hexadecimal digit of bits `[31 - 4*n : 28 - 4*n]` of word `i`, each an ASCII code in `0x30..0x39` or `0x61..0x66`. -/
def Obligations.FortyLowercaseHexCharacters : Prop :=
  (∀ d : BitVec 4, (hexdigit d).toNat = if d.toNat ≤ 9 then 0x30 + d.toNat else 0x61 + (d.toNat - 10)) ∧
  ∀ S : Words5, (toHex S).length = 40 ∧
    (∀ (i : Fin 5) (n : Nat), n < 8 →
      (toHex S)[8 * i.val + n]? = some (hexdigit ((S.get i).extractLsb' (28 - 4 * n) 4))) ∧
    ∀ c ∈ toHex S, (0x30 ≤ c.toNat ∧ c.toNat ≤ 0x39) ∨ (0x61 ≤ c.toNat ∧ c.toNat ≤ 0x66)
end

