-- ==== Sys2Proof/Laws/State.lean ====
section
/-! SUPPORT. One lemma per field per update: what each named update of the state writes and what it leaves, so that no
later proof unfolds a record update. -/

namespace Sys2Proof.Machine

open Sys2Proof

/-! ### respond -/

@[simp] theorem State.respond_h (s : State) (d : Word) : (s.respond d).h = s.h := by
  cases s; rfl
@[simp] theorem State.respond_wr (s : State) (d : Word) : (s.respond d).wr = s.wr := by
  cases s; rfl
@[simp] theorem State.respond_w (s : State) (d : Word) : (s.respond d).w = s.w := by
  cases s; rfl
@[simp] theorem State.respond_blk (s : State) (d : Word) : (s.respond d).blk = s.blk := by
  cases s; rfl
@[simp] theorem State.respond_fill (s : State) (d : Word) : (s.respond d).fill = s.fill := by
  cases s; rfl
@[simp] theorem State.respond_len (s : State) (d : Word) : (s.respond d).len = s.len := by
  cases s; rfl
@[simp] theorem State.respond_phase (s : State) (d : Word) : (s.respond d).phase = s.phase := by
  cases s; rfl
@[simp] theorem State.respond_err (s : State) (d : Word) : (s.respond d).err = s.err := by
  cases s; rfl
@[simp] theorem State.respond_badcmd (s : State) (d : Word) : (s.respond d).badcmd = s.badcmd := by
  cases s; rfl
@[simp] theorem State.respond_lenBits (s : State) (d : Word) : (s.respond d).lenBits = s.lenBits := by
  cases s; rfl
@[simp] theorem State.respond_port (s : State) (d : Word) : (s.respond d).port = s.port := by
  cases s; rfl
@[simp] theorem State.respond_response (s : State) (d : Word) : (s.respond d).response = some ⟨false, d⟩ := by
  cases s; rfl
@[simp] theorem State.respond_resets (s : State) (d : Word) : (s.respond d).resets = s.resets := by
  cases s; rfl

/-! ### PHASE <- p -/

@[simp] theorem State.setPhase_h (s : State) (p : Phase) : (s.setPhase p).h = s.h := by
  cases s; rfl
@[simp] theorem State.setPhase_wr (s : State) (p : Phase) : (s.setPhase p).wr = s.wr := by
  cases s; rfl
@[simp] theorem State.setPhase_w (s : State) (p : Phase) : (s.setPhase p).w = s.w := by
  cases s; rfl
@[simp] theorem State.setPhase_blk (s : State) (p : Phase) : (s.setPhase p).blk = s.blk := by
  cases s; rfl
@[simp] theorem State.setPhase_fill (s : State) (p : Phase) : (s.setPhase p).fill = s.fill := by
  cases s; rfl
@[simp] theorem State.setPhase_len (s : State) (p : Phase) : (s.setPhase p).len = s.len := by
  cases s; rfl
@[simp] theorem State.setPhase_phase (s : State) (p : Phase) : (s.setPhase p).phase = p := by
  cases s; rfl
@[simp] theorem State.setPhase_err (s : State) (p : Phase) : (s.setPhase p).err = s.err := by
  cases s; rfl
@[simp] theorem State.setPhase_badcmd (s : State) (p : Phase) : (s.setPhase p).badcmd = s.badcmd := by
  cases s; rfl
@[simp] theorem State.setPhase_lenBits (s : State) (p : Phase) : (s.setPhase p).lenBits = s.lenBits := by
  cases s; rfl
@[simp] theorem State.setPhase_port (s : State) (p : Phase) : (s.setPhase p).port = s.port := by
  cases s; rfl
@[simp] theorem State.setPhase_response (s : State) (p : Phase) : (s.setPhase p).response = s.response := by
  cases s; rfl
@[simp] theorem State.setPhase_resets (s : State) (p : Phase) : (s.setPhase p).resets = s.resets := by
  cases s; rfl

/-! ### fault entry -/

@[simp] theorem State.faultEntry_h (s : State) (c : FaultCode) (cw : CmdWord) : (s.faultEntry c cw).h = s.h := by
  cases s; rfl
@[simp] theorem State.faultEntry_wr (s : State) (c : FaultCode) (cw : CmdWord) : (s.faultEntry c cw).wr = s.wr := by
  cases s; rfl
@[simp] theorem State.faultEntry_w (s : State) (c : FaultCode) (cw : CmdWord) : (s.faultEntry c cw).w = s.w := by
  cases s; rfl
@[simp] theorem State.faultEntry_blk (s : State) (c : FaultCode) (cw : CmdWord) : (s.faultEntry c cw).blk = s.blk := by
  cases s; rfl
@[simp] theorem State.faultEntry_fill (s : State) (c : FaultCode) (cw : CmdWord) : (s.faultEntry c cw).fill = s.fill := by
  cases s; rfl
@[simp] theorem State.faultEntry_len (s : State) (c : FaultCode) (cw : CmdWord) : (s.faultEntry c cw).len = s.len := by
  cases s; rfl
@[simp] theorem State.faultEntry_phase (s : State) (c : FaultCode) (cw : CmdWord) : (s.faultEntry c cw).phase = .fault := by
  cases s; rfl
@[simp] theorem State.faultEntry_err (s : State) (c : FaultCode) (cw : CmdWord) : (s.faultEntry c cw).err = if s.phase = .fault then s.err else some c := by
  cases s; rfl
@[simp] theorem State.faultEntry_badcmd (s : State) (c : FaultCode) (cw : CmdWord) : (s.faultEntry c cw).badcmd = if s.phase = .fault then s.badcmd else cw := by
  cases s; rfl
@[simp] theorem State.faultEntry_lenBits (s : State) (c : FaultCode) (cw : CmdWord) : (s.faultEntry c cw).lenBits = s.lenBits := by
  cases s; rfl
@[simp] theorem State.faultEntry_port (s : State) (c : FaultCode) (cw : CmdWord) : (s.faultEntry c cw).port = s.port := by
  cases s; rfl
@[simp] theorem State.faultEntry_response (s : State) (c : FaultCode) (cw : CmdWord) : (s.faultEntry c cw).response = some ⟨true, c.data⟩ := by
  cases s; rfl
@[simp] theorem State.faultEntry_resets (s : State) (c : FaultCode) (cw : CmdWord) : (s.faultEntry c cw).resets = s.resets := by
  cases s; rfl

/-! ### leaving phase FAULT -/

@[simp] theorem State.leaveFault_h (s : State) : (s.leaveFault).h = s.h := by
  cases s; rfl
@[simp] theorem State.leaveFault_wr (s : State) : (s.leaveFault).wr = s.wr := by
  cases s; rfl
@[simp] theorem State.leaveFault_w (s : State) : (s.leaveFault).w = s.w := by
  cases s; rfl
@[simp] theorem State.leaveFault_blk (s : State) : (s.leaveFault).blk = s.blk := by
  cases s; rfl
@[simp] theorem State.leaveFault_fill (s : State) : (s.leaveFault).fill = s.fill := by
  cases s; rfl
@[simp] theorem State.leaveFault_len (s : State) : (s.leaveFault).len = s.len := by
  cases s; rfl
@[simp] theorem State.leaveFault_phase (s : State) : (s.leaveFault).phase = .absorb := by
  cases s; rfl
@[simp] theorem State.leaveFault_err (s : State) : (s.leaveFault).err = none := by
  cases s; rfl
@[simp] theorem State.leaveFault_badcmd (s : State) : (s.leaveFault).badcmd = 0 := by
  cases s; rfl
@[simp] theorem State.leaveFault_lenBits (s : State) : (s.leaveFault).lenBits = s.lenBits := by
  cases s; rfl
@[simp] theorem State.leaveFault_port (s : State) : (s.leaveFault).port = s.port := by
  cases s; rfl
@[simp] theorem State.leaveFault_response (s : State) : (s.leaveFault).response = s.response := by
  cases s; rfl
@[simp] theorem State.leaveFault_resets (s : State) : (s.leaveFault).resets = s.resets := by
  cases s; rfl

/-! ### reset (the data state is free: no lemma names a value of it) -/

@[simp] theorem State.applyReset_fill (s : State) : s.applyReset.fill = 0 := by
  cases s; rfl
@[simp] theorem State.applyReset_len (s : State) : s.applyReset.len = 0 := by
  cases s; rfl
@[simp] theorem State.applyReset_phase (s : State) : s.applyReset.phase = .idle := by
  cases s; rfl
@[simp] theorem State.applyReset_err (s : State) : s.applyReset.err = none := by
  cases s; rfl
@[simp] theorem State.applyReset_badcmd (s : State) : s.applyReset.badcmd = 0 := by
  cases s; rfl
@[simp] theorem State.applyReset_lenBits (s : State) : s.applyReset.lenBits = s.lenBits := by
  cases s; rfl
@[simp] theorem State.applyReset_port (s : State) : s.applyReset.port = s.port := by
  cases s; rfl
@[simp] theorem State.applyReset_response (s : State) : s.applyReset.response = none := by
  cases s; rfl
@[simp] theorem State.applyReset_resets (s : State) : s.applyReset.resets = s.resets + 1 := by
  cases s; rfl

/-! ### APPEND -/

@[simp] theorem append_h (s : State) (b : Byte) : (append s b).h = s.h := by
  cases s; rfl
@[simp] theorem append_wr (s : State) (b : Byte) : (append s b).wr = s.wr := by
  cases s; rfl
@[simp] theorem append_w (s : State) (b : Byte) : (append s b).w = s.w := by
  cases s; rfl
@[simp] theorem append_blk (s : State) (b : Byte) : (append s b).blk = memWrite1 s.blk s.fill b := by
  cases s; rfl
@[simp] theorem append_fill (s : State) (b : Byte) : (append s b).fill = s.fill + 1 := by
  cases s; rfl
@[simp] theorem append_len (s : State) (b : Byte) : (append s b).len = s.len + 1 := by
  cases s; rfl
@[simp] theorem append_phase (s : State) (b : Byte) : (append s b).phase = s.phase := by
  cases s; rfl
@[simp] theorem append_err (s : State) (b : Byte) : (append s b).err = s.err := by
  cases s; rfl
@[simp] theorem append_badcmd (s : State) (b : Byte) : (append s b).badcmd = s.badcmd := by
  cases s; rfl
@[simp] theorem append_lenBits (s : State) (b : Byte) : (append s b).lenBits = s.lenBits := by
  cases s; rfl
@[simp] theorem append_port (s : State) (b : Byte) : (append s b).port = s.port := by
  cases s; rfl
@[simp] theorem append_response (s : State) (b : Byte) : (append s b).response = s.response := by
  cases s; rfl
@[simp] theorem append_resets (s : State) (b : Byte) : (append s b).resets = s.resets := by
  cases s; rfl

/-! ### PADMARK -/

@[simp] theorem padMark_h (s : State) : (padMark s).h = s.h := by
  cases s; rfl
@[simp] theorem padMark_wr (s : State) : (padMark s).wr = s.wr := by
  cases s; rfl
@[simp] theorem padMark_w (s : State) : (padMark s).w = s.w := by
  cases s; rfl
@[simp] theorem padMark_blk (s : State) : (padMark s).blk = memWrite1 s.blk s.fill 0x80 := by
  cases s; rfl
@[simp] theorem padMark_fill (s : State) : (padMark s).fill = s.fill + 1 := by
  cases s; rfl
@[simp] theorem padMark_len (s : State) : (padMark s).len = s.len := by
  cases s; rfl
@[simp] theorem padMark_phase (s : State) : (padMark s).phase = s.phase := by
  cases s; rfl
@[simp] theorem padMark_err (s : State) : (padMark s).err = s.err := by
  cases s; rfl
@[simp] theorem padMark_badcmd (s : State) : (padMark s).badcmd = s.badcmd := by
  cases s; rfl
@[simp] theorem padMark_lenBits (s : State) : (padMark s).lenBits = s.lenBits := by
  cases s; rfl
@[simp] theorem padMark_port (s : State) : (padMark s).port = s.port := by
  cases s; rfl
@[simp] theorem padMark_response (s : State) : (padMark s).response = s.response := by
  cases s; rfl
@[simp] theorem padMark_resets (s : State) : (padMark s).resets = s.resets := by
  cases s; rfl

/-! ### PADZERO -/

@[simp] theorem padZero_h (s : State) (n : Nat) : (padZero s n).h = s.h := by
  cases s; rfl
@[simp] theorem padZero_wr (s : State) (n : Nat) : (padZero s n).wr = s.wr := by
  cases s; rfl
@[simp] theorem padZero_w (s : State) (n : Nat) : (padZero s n).w = s.w := by
  cases s; rfl
@[simp] theorem padZero_blk (s : State) (n : Nat) : (padZero s n).blk = zeroFill s.blk s.fill (n - s.fill) := by
  cases s; rfl
@[simp] theorem padZero_fill (s : State) (n : Nat) : (padZero s n).fill = s.fill + (n - s.fill) := by
  cases s; rfl
@[simp] theorem padZero_len (s : State) (n : Nat) : (padZero s n).len = s.len := by
  cases s; rfl
@[simp] theorem padZero_phase (s : State) (n : Nat) : (padZero s n).phase = s.phase := by
  cases s; rfl
@[simp] theorem padZero_err (s : State) (n : Nat) : (padZero s n).err = s.err := by
  cases s; rfl
@[simp] theorem padZero_badcmd (s : State) (n : Nat) : (padZero s n).badcmd = s.badcmd := by
  cases s; rfl
@[simp] theorem padZero_lenBits (s : State) (n : Nat) : (padZero s n).lenBits = s.lenBits := by
  cases s; rfl
@[simp] theorem padZero_port (s : State) (n : Nat) : (padZero s n).port = s.port := by
  cases s; rfl
@[simp] theorem padZero_response (s : State) (n : Nat) : (padZero s n).response = s.response := by
  cases s; rfl
@[simp] theorem padZero_resets (s : State) (n : Nat) : (padZero s n).resets = s.resets := by
  cases s; rfl

/-! ### PADLEN -/

@[simp] theorem padLen_h (s : State) : (padLen s).h = s.h := by
  cases s; rfl
@[simp] theorem padLen_wr (s : State) : (padLen s).wr = s.wr := by
  cases s; rfl
@[simp] theorem padLen_w (s : State) : (padLen s).w = s.w := by
  cases s; rfl
@[simp] theorem padLen_blk (s : State) : (padLen s).blk = memWrite8 s.blk 56 (BitVec.ofNat 64 s.len * 8) := by
  cases s; rfl
@[simp] theorem padLen_fill (s : State) : (padLen s).fill = 64 := by
  cases s; rfl
@[simp] theorem padLen_len (s : State) : (padLen s).len = s.len := by
  cases s; rfl
@[simp] theorem padLen_phase (s : State) : (padLen s).phase = s.phase := by
  cases s; rfl
@[simp] theorem padLen_err (s : State) : (padLen s).err = s.err := by
  cases s; rfl
@[simp] theorem padLen_badcmd (s : State) : (padLen s).badcmd = s.badcmd := by
  cases s; rfl
@[simp] theorem padLen_lenBits (s : State) : (padLen s).lenBits = s.lenBits := by
  cases s; rfl
@[simp] theorem padLen_port (s : State) : (padLen s).port = s.port := by
  cases s; rfl
@[simp] theorem padLen_response (s : State) : (padLen s).response = s.response := by
  cases s; rfl
@[simp] theorem padLen_resets (s : State) : (padLen s).resets = s.resets := by
  cases s; rfl

/-! ### LOADW -/

@[simp] theorem loadW_h (s : State) : (loadW s).h = s.h := by
  cases s; rfl
@[simp] theorem loadW_wr (s : State) : (loadW s).wr = s.wr := by
  cases s; rfl
@[simp] theorem loadW_w (s : State) : (loadW s).w = (List.range 16).foldl (loadWord s.blk) s.w := by
  cases s; rfl
@[simp] theorem loadW_blk (s : State) : (loadW s).blk = s.blk := by
  cases s; rfl
@[simp] theorem loadW_fill (s : State) : (loadW s).fill = s.fill := by
  cases s; rfl
@[simp] theorem loadW_len (s : State) : (loadW s).len = s.len := by
  cases s; rfl
@[simp] theorem loadW_phase (s : State) : (loadW s).phase = s.phase := by
  cases s; rfl
@[simp] theorem loadW_err (s : State) : (loadW s).err = s.err := by
  cases s; rfl
@[simp] theorem loadW_badcmd (s : State) : (loadW s).badcmd = s.badcmd := by
  cases s; rfl
@[simp] theorem loadW_lenBits (s : State) : (loadW s).lenBits = s.lenBits := by
  cases s; rfl
@[simp] theorem loadW_port (s : State) : (loadW s).port = s.port := by
  cases s; rfl
@[simp] theorem loadW_response (s : State) : (loadW s).response = s.response := by
  cases s; rfl
@[simp] theorem loadW_resets (s : State) : (loadW s).resets = s.resets := by
  cases s; rfl

/-! ### the 64 EXPANDs -/

@[simp] theorem expandAll_h (s : State) : (expandAll s).h = s.h := by
  cases s; rfl
@[simp] theorem expandAll_wr (s : State) : (expandAll s).wr = s.wr := by
  cases s; rfl
@[simp] theorem expandAll_w (s : State) : (expandAll s).w = (List.range' 16 64).foldl expand s.w := by
  cases s; rfl
@[simp] theorem expandAll_blk (s : State) : (expandAll s).blk = s.blk := by
  cases s; rfl
@[simp] theorem expandAll_fill (s : State) : (expandAll s).fill = s.fill := by
  cases s; rfl
@[simp] theorem expandAll_len (s : State) : (expandAll s).len = s.len := by
  cases s; rfl
@[simp] theorem expandAll_phase (s : State) : (expandAll s).phase = s.phase := by
  cases s; rfl
@[simp] theorem expandAll_err (s : State) : (expandAll s).err = s.err := by
  cases s; rfl
@[simp] theorem expandAll_badcmd (s : State) : (expandAll s).badcmd = s.badcmd := by
  cases s; rfl
@[simp] theorem expandAll_lenBits (s : State) : (expandAll s).lenBits = s.lenBits := by
  cases s; rfl
@[simp] theorem expandAll_port (s : State) : (expandAll s).port = s.port := by
  cases s; rfl
@[simp] theorem expandAll_response (s : State) : (expandAll s).response = s.response := by
  cases s; rfl
@[simp] theorem expandAll_resets (s : State) : (expandAll s).resets = s.resets := by
  cases s; rfl

/-! ### SEED -/

@[simp] theorem seed_h (s : State) : (seed s).h = s.h := by
  cases s; rfl
@[simp] theorem seed_wr (s : State) : (seed s).wr = s.h := by
  cases s; rfl
@[simp] theorem seed_w (s : State) : (seed s).w = s.w := by
  cases s; rfl
@[simp] theorem seed_blk (s : State) : (seed s).blk = s.blk := by
  cases s; rfl
@[simp] theorem seed_fill (s : State) : (seed s).fill = s.fill := by
  cases s; rfl
@[simp] theorem seed_len (s : State) : (seed s).len = s.len := by
  cases s; rfl
@[simp] theorem seed_phase (s : State) : (seed s).phase = s.phase := by
  cases s; rfl
@[simp] theorem seed_err (s : State) : (seed s).err = s.err := by
  cases s; rfl
@[simp] theorem seed_badcmd (s : State) : (seed s).badcmd = s.badcmd := by
  cases s; rfl
@[simp] theorem seed_lenBits (s : State) : (seed s).lenBits = s.lenBits := by
  cases s; rfl
@[simp] theorem seed_port (s : State) : (seed s).port = s.port := by
  cases s; rfl
@[simp] theorem seed_response (s : State) : (seed s).response = s.response := by
  cases s; rfl
@[simp] theorem seed_resets (s : State) : (seed s).resets = s.resets := by
  cases s; rfl

/-! ### the 80 ROUNDs -/

@[simp] theorem roundAll_h (s : State) : (roundAll s).h = s.h := by
  cases s; rfl
@[simp] theorem roundAll_wr (s : State) : (roundAll s).wr = (List.range 80).foldl (roundOp s.w) s.wr := by
  cases s; rfl
@[simp] theorem roundAll_w (s : State) : (roundAll s).w = s.w := by
  cases s; rfl
@[simp] theorem roundAll_blk (s : State) : (roundAll s).blk = s.blk := by
  cases s; rfl
@[simp] theorem roundAll_fill (s : State) : (roundAll s).fill = s.fill := by
  cases s; rfl
@[simp] theorem roundAll_len (s : State) : (roundAll s).len = s.len := by
  cases s; rfl
@[simp] theorem roundAll_phase (s : State) : (roundAll s).phase = s.phase := by
  cases s; rfl
@[simp] theorem roundAll_err (s : State) : (roundAll s).err = s.err := by
  cases s; rfl
@[simp] theorem roundAll_badcmd (s : State) : (roundAll s).badcmd = s.badcmd := by
  cases s; rfl
@[simp] theorem roundAll_lenBits (s : State) : (roundAll s).lenBits = s.lenBits := by
  cases s; rfl
@[simp] theorem roundAll_port (s : State) : (roundAll s).port = s.port := by
  cases s; rfl
@[simp] theorem roundAll_response (s : State) : (roundAll s).response = s.response := by
  cases s; rfl
@[simp] theorem roundAll_resets (s : State) : (roundAll s).resets = s.resets := by
  cases s; rfl

/-! ### ACCUM -/

@[simp] theorem accum_h (s : State) : (accum s).h = s.h.add s.wr := by
  cases s; rfl
@[simp] theorem accum_wr (s : State) : (accum s).wr = s.wr := by
  cases s; rfl
@[simp] theorem accum_w (s : State) : (accum s).w = s.w := by
  cases s; rfl
@[simp] theorem accum_blk (s : State) : (accum s).blk = s.blk := by
  cases s; rfl
@[simp] theorem accum_fill (s : State) : (accum s).fill = s.fill := by
  cases s; rfl
@[simp] theorem accum_len (s : State) : (accum s).len = s.len := by
  cases s; rfl
@[simp] theorem accum_phase (s : State) : (accum s).phase = s.phase := by
  cases s; rfl
@[simp] theorem accum_err (s : State) : (accum s).err = s.err := by
  cases s; rfl
@[simp] theorem accum_badcmd (s : State) : (accum s).badcmd = s.badcmd := by
  cases s; rfl
@[simp] theorem accum_lenBits (s : State) : (accum s).lenBits = s.lenBits := by
  cases s; rfl
@[simp] theorem accum_port (s : State) : (accum s).port = s.port := by
  cases s; rfl
@[simp] theorem accum_response (s : State) : (accum s).response = s.response := by
  cases s; rfl
@[simp] theorem accum_resets (s : State) : (accum s).resets = s.resets := by
  cases s; rfl

/-! ### FILL <- 0 -/

@[simp] theorem clearFill_h (s : State) : (clearFill s).h = s.h := by
  cases s; rfl
@[simp] theorem clearFill_wr (s : State) : (clearFill s).wr = s.wr := by
  cases s; rfl
@[simp] theorem clearFill_w (s : State) : (clearFill s).w = s.w := by
  cases s; rfl
@[simp] theorem clearFill_blk (s : State) : (clearFill s).blk = s.blk := by
  cases s; rfl
@[simp] theorem clearFill_fill (s : State) : (clearFill s).fill = 0 := by
  cases s; rfl
@[simp] theorem clearFill_len (s : State) : (clearFill s).len = s.len := by
  cases s; rfl
@[simp] theorem clearFill_phase (s : State) : (clearFill s).phase = s.phase := by
  cases s; rfl
@[simp] theorem clearFill_err (s : State) : (clearFill s).err = s.err := by
  cases s; rfl
@[simp] theorem clearFill_badcmd (s : State) : (clearFill s).badcmd = s.badcmd := by
  cases s; rfl
@[simp] theorem clearFill_lenBits (s : State) : (clearFill s).lenBits = s.lenBits := by
  cases s; rfl
@[simp] theorem clearFill_port (s : State) : (clearFill s).port = s.port := by
  cases s; rfl
@[simp] theorem clearFill_response (s : State) : (clearFill s).response = s.response := by
  cases s; rfl
@[simp] theorem clearFill_resets (s : State) : (clearFill s).resets = s.resets := by
  cases s; rfl

/-! ### COMPRESS: what it leaves unchanged, and `FILL` -/

@[simp] theorem compress_blk (s : State) : (compress s).blk = s.blk := by
  cases s; rfl
@[simp] theorem compress_fill (s : State) : (compress s).fill = 0 := by
  cases s; rfl
@[simp] theorem compress_len (s : State) : (compress s).len = s.len := by
  cases s; rfl
@[simp] theorem compress_phase (s : State) : (compress s).phase = s.phase := by
  cases s; rfl
@[simp] theorem compress_err (s : State) : (compress s).err = s.err := by
  cases s; rfl
@[simp] theorem compress_badcmd (s : State) : (compress s).badcmd = s.badcmd := by
  cases s; rfl
@[simp] theorem compress_lenBits (s : State) : (compress s).lenBits = s.lenBits := by
  cases s; rfl
@[simp] theorem compress_port (s : State) : (compress s).port = s.port := by
  cases s; rfl
@[simp] theorem compress_response (s : State) : (compress s).response = s.response := by
  cases s; rfl
@[simp] theorem compress_resets (s : State) : (compress s).resets = s.resets := by
  cases s; rfl

/-- The working registers after `COMPRESS`: the 80 rounds from `H` over the block's schedule. -/
theorem compress_wr (s : State) :
    (compress s).wr = (List.range 80).foldl (roundOp (compress s).w) s.h := by cases s; rfl

/-- The schedule after `COMPRESS` is the one `LOADW` and the `EXPAND`s built. -/
theorem compress_w (s : State) : (compress s).w = (expandAll (loadW s)).w := by
  rw [compress, clearFill_w, accum_w, roundAll_w, seed_w]

/-- `H` after `COMPRESS`: the word-by-word sum with the working registers. -/
theorem compress_h (s : State) : (compress s).h = s.h.add (compress s).wr := by
  rw [compress, clearFill_h, clearFill_wr, accum_h, accum_wr, roundAll_h, seed_h, expandAll_h, loadW_h]

/-! ### PUSH and FINAL: their two cases, and the fields they leave unchanged or always set -/

/-- A byte that does not complete the block. -/
theorem absorbByte_open {s : State} (b : Byte) (h : s.fill ≠ 63) : absorbByte s b = append s b := by
  rw [absorbByte, if_neg]
  rw [append_fill]; omega

/-- The byte that completes the block. -/
theorem absorbByte_full {s : State} (b : Byte) (h : s.fill = 63) : absorbByte s b = compress (append s b) := by
  rw [absorbByte, if_pos]
  rw [append_fill, h]

/-- The padding fits the block in the buffer (R100, `r <= 55`). -/
theorem closeMessage_one {s : State} (h : s.fill ≤ 55) :
    closeMessage s = compress (padLen (padZero (padMark s) 56)) := by
  rw [closeMessage, if_neg]
  rw [padMark_fill]; omega

/-- The padding needs a second block (R100, `r >= 56`). -/
theorem closeMessage_two {s : State} (h : 56 ≤ s.fill) :
    closeMessage s = compress (padLen (padZero (compress (padZero (padMark s) 64)) 56)) := by
  rw [closeMessage, if_pos]
  rw [padMark_fill]; omega

@[simp] theorem absorbByte_fill (s : State) (b : Byte) :
    (absorbByte s b).fill = if s.fill = 63 then 0 else s.fill + 1 := by
  by_cases h : s.fill = 63
  · rw [absorbByte_full b h, if_pos h, compress_fill]
  · rw [absorbByte_open b h, if_neg h, append_fill]
@[simp] theorem absorbByte_blk (s : State) (b : Byte) : (absorbByte s b).blk = memWrite1 s.blk s.fill b := by
  by_cases h : s.fill = 63
  · rw [absorbByte_full b h, compress_blk, append_blk]
  · rw [absorbByte_open b h, append_blk]
@[simp] theorem absorbByte_len (s : State) (b : Byte) : (absorbByte s b).len = s.len + 1 := by
  by_cases h : s.fill = 63
  · rw [absorbByte_full b h, compress_len, append_len]
  · rw [absorbByte_open b h, append_len]
@[simp] theorem absorbByte_phase (s : State) (b : Byte) : (absorbByte s b).phase = s.phase := by
  by_cases h : s.fill = 63
  · rw [absorbByte_full b h, compress_phase, append_phase]
  · rw [absorbByte_open b h, append_phase]
@[simp] theorem absorbByte_err (s : State) (b : Byte) : (absorbByte s b).err = s.err := by
  by_cases h : s.fill = 63
  · rw [absorbByte_full b h, compress_err, append_err]
  · rw [absorbByte_open b h, append_err]
@[simp] theorem absorbByte_badcmd (s : State) (b : Byte) : (absorbByte s b).badcmd = s.badcmd := by
  by_cases h : s.fill = 63
  · rw [absorbByte_full b h, compress_badcmd, append_badcmd]
  · rw [absorbByte_open b h, append_badcmd]
@[simp] theorem absorbByte_lenBits (s : State) (b : Byte) : (absorbByte s b).lenBits = s.lenBits := by
  by_cases h : s.fill = 63
  · rw [absorbByte_full b h, compress_lenBits, append_lenBits]
  · rw [absorbByte_open b h, append_lenBits]
@[simp] theorem absorbByte_port (s : State) (b : Byte) : (absorbByte s b).port = s.port := by
  by_cases h : s.fill = 63
  · rw [absorbByte_full b h, compress_port, append_port]
  · rw [absorbByte_open b h, append_port]
@[simp] theorem absorbByte_response (s : State) (b : Byte) : (absorbByte s b).response = s.response := by
  by_cases h : s.fill = 63
  · rw [absorbByte_full b h, compress_response, append_response]
  · rw [absorbByte_open b h, append_response]
@[simp] theorem absorbByte_resets (s : State) (b : Byte) : (absorbByte s b).resets = s.resets := by
  by_cases h : s.fill = 63
  · rw [absorbByte_full b h, compress_resets, append_resets]
  · rw [absorbByte_open b h, append_resets]
@[simp] theorem closeMessage_fill (s : State) : (closeMessage s).fill = 0 := by rw [closeMessage, compress_fill]
@[simp] theorem closeMessage_len (s : State) : (closeMessage s).len = s.len := by
  by_cases h : s.fill ≤ 55
  · rw [closeMessage_one h, compress_len, padLen_len, padZero_len, padMark_len]
  · rw [closeMessage_two (by omega), compress_len, padLen_len, padZero_len, compress_len, padZero_len, padMark_len]
@[simp] theorem closeMessage_phase (s : State) : (closeMessage s).phase = s.phase := by
  by_cases h : s.fill ≤ 55
  · rw [closeMessage_one h, compress_phase, padLen_phase, padZero_phase, padMark_phase]
  · rw [closeMessage_two (by omega), compress_phase, padLen_phase, padZero_phase, compress_phase, padZero_phase, padMark_phase]
@[simp] theorem closeMessage_err (s : State) : (closeMessage s).err = s.err := by
  by_cases h : s.fill ≤ 55
  · rw [closeMessage_one h, compress_err, padLen_err, padZero_err, padMark_err]
  · rw [closeMessage_two (by omega), compress_err, padLen_err, padZero_err, compress_err, padZero_err, padMark_err]
@[simp] theorem closeMessage_badcmd (s : State) : (closeMessage s).badcmd = s.badcmd := by
  by_cases h : s.fill ≤ 55
  · rw [closeMessage_one h, compress_badcmd, padLen_badcmd, padZero_badcmd, padMark_badcmd]
  · rw [closeMessage_two (by omega), compress_badcmd, padLen_badcmd, padZero_badcmd, compress_badcmd, padZero_badcmd, padMark_badcmd]
@[simp] theorem closeMessage_lenBits (s : State) : (closeMessage s).lenBits = s.lenBits := by
  by_cases h : s.fill ≤ 55
  · rw [closeMessage_one h, compress_lenBits, padLen_lenBits, padZero_lenBits, padMark_lenBits]
  · rw [closeMessage_two (by omega), compress_lenBits, padLen_lenBits, padZero_lenBits, compress_lenBits, padZero_lenBits, padMark_lenBits]
@[simp] theorem closeMessage_port (s : State) : (closeMessage s).port = s.port := by
  by_cases h : s.fill ≤ 55
  · rw [closeMessage_one h, compress_port, padLen_port, padZero_port, padMark_port]
  · rw [closeMessage_two (by omega), compress_port, padLen_port, padZero_port, compress_port, padZero_port, padMark_port]
@[simp] theorem closeMessage_response (s : State) : (closeMessage s).response = s.response := by
  by_cases h : s.fill ≤ 55
  · rw [closeMessage_one h, compress_response, padLen_response, padZero_response, padMark_response]
  · rw [closeMessage_two (by omega), compress_response, padLen_response, padZero_response, compress_response, padZero_response, padMark_response]
@[simp] theorem closeMessage_resets (s : State) : (closeMessage s).resets = s.resets := by
  by_cases h : s.fill ≤ 55
  · rw [closeMessage_one h, compress_resets, padLen_resets, padZero_resets, padMark_resets]
  · rw [closeMessage_two (by omega), compress_resets, padLen_resets, padZero_resets, compress_resets, padZero_resets, padMark_resets]

end Sys2Proof.Machine
end

