-- ==== Sys2Proof/Laws/Exec.lean ====
section
/-! SUPPORT. One inversion lemma per shared operation, per command and for the step: if it answers a next state, then
one of these cases holds. Later proofs cite these and never unfold a meaning. -/

namespace Sys2Proof.Machine

open Sys2Proof

/-- Fault entry is a next state: `raise` never stops the machine (R170). -/
theorem raise_eq (c : FaultCode) (cw : CmdWord) (s : State) : raise c cw s = .next (s.faultEntry c cw) := rfl

/-- In the phase it asks for, a command runs. -/
theorem inPhase_of_eq {p : Phase} {cw : CmdWord} {body : State → Result} {s : State} (h : s.phase = p) :
    inPhase p cw body s = body s := by rw [inPhase, if_pos h]

/-- In another phase it takes ProtocolError. -/
theorem inPhase_of_ne {p : Phase} {cw : CmdWord} {body : State → Result} {s : State} (h : s.phase ≠ p) :
    inPhase p cw body s = .next (s.faultEntry .protocolError cw) := by rw [inPhase, if_neg h, raise_eq]

/-- An index within the view is an operand. -/
theorem indexOperand_of_lt {n : Nat} {arg : Byte} (h : arg.toNat < n) : indexOperand n arg = some ⟨arg.toNat, h⟩ := by
  rw [indexOperand, dif_pos h]

/-- An index beyond the view is a reserved encoding. -/
theorem indexOperand_of_ge {n : Nat} {arg : Byte} (h : n ≤ arg.toNat) : indexOperand n arg = none := by
  rw [indexOperand, dif_neg (by omega)]

/-- `INIT` has one case. -/
theorem execInit_next {s t : State} (h : execInit s = .next t) :
    t = ({ s with h := iv, len := 0, fill := 0 }.leaveFault).respond 0 := by
  unfold execInit at h; exact (Host.Outcome.next.inj h).symm

/-- `STAT` has one case. -/
theorem execStat_next {s t : State} (h : execStat s = .next t) : t = s.respond s.status := by
  unfold execStat at h; exact (Host.Outcome.next.inj h).symm

/-- Everything `PUSH` can do when it answers a next state. -/
theorem execPush_next {b : Byte} {s t : State} (h : execPush b s = .next t) :
    (s.phase ≠ .absorb ∧ t = s.faultEntry .protocolError (encode (.push b))) ∨
    (s.phase = .absorb ∧ s.len = s.lenMax ∧ t = s.faultEntry .lengthOverflow (encode (.push b))) ∨
    (s.phase = .absorb ∧ s.len ≠ s.lenMax ∧ s.fill ≤ 63 ∧ t = (absorbByte s b).respond 0) := by
  unfold execPush at h
  by_cases hp : s.phase = .absorb
  · rw [inPhase_of_eq hp] at h
    split at h
    · rename_i hl
      exact .inr (.inl ⟨hp, hl, (Host.Outcome.next.inj h).symm⟩)
    · rename_i hl
      split at h
      · cases h
      · rename_i hf
        exact .inr (.inr ⟨hp, hl, by omega, (Host.Outcome.next.inj h).symm⟩)
  · rw [inPhase_of_ne hp] at h
    exact .inl ⟨hp, (Host.Outcome.next.inj h).symm⟩

/-- Everything `FINAL` can do when it answers a next state. -/
theorem execFinal_next {s t : State} (h : execFinal s = .next t) :
    (s.phase ≠ .absorb ∧ t = s.faultEntry .protocolError (encode .final)) ∨
    (s.phase = .absorb ∧ s.fill ≤ 63 ∧ t = ((closeMessage s).setPhase .done).respond 0) := by
  unfold execFinal at h
  by_cases hp : s.phase = .absorb
  · rw [inPhase_of_eq hp] at h
    split at h
    · cases h
    · exact .inr ⟨hp, by omega, (Host.Outcome.next.inj h).symm⟩
  · rw [inPhase_of_ne hp] at h
    exact .inl ⟨hp, (Host.Outcome.next.inj h).symm⟩

/-- Everything a read-out command can do; it always answers a next state. -/
theorem readView_cases (n : Nat) (arg : Byte) (cw : CmdWord) (view : Words5 → Fin n → Word) (s : State) :
    (n ≤ arg.toNat ∧ readView n arg cw view s = .next (s.faultEntry .illegalCommand cw)) ∨
    (arg.toNat < n ∧ s.phase ≠ .done ∧ readView n arg cw view s = .next (s.faultEntry .protocolError cw)) ∨
    (∃ h : arg.toNat < n, s.phase = .done ∧
      readView n arg cw view s = .next (s.respond (view s.h ⟨arg.toNat, h⟩))) := by
  unfold readView
  by_cases hn : arg.toNat < n
  · rw [indexOperand_of_lt hn]
    by_cases hp : s.phase = .done
    · exact .inr (.inr ⟨hn, hp, inPhase_of_eq hp⟩)
    · exact .inr (.inl ⟨hn, hp, inPhase_of_ne hp⟩)
  · rw [indexOperand_of_ge (by omega)]
    exact .inl ⟨by omega, rfl⟩

/-! ### Each command as the shared operation it goes through, and its success case -/

theorem exec_rdw (i : Byte) (s : State) : exec (.rdw i) s = readView 5 i (encode (.rdw i)) Words5.get s := rfl
theorem exec_rdb (j : Byte) (s : State) :
    exec (.rdb j) s = readView 20 j (encode (.rdb j)) (fun h j => (digestByte h j).zeroExtend 32) s := rfl
theorem exec_rdhex (k : Byte) (s : State) :
    exec (.rdhex k) s = readView 40 k (encode (.rdhex k)) (fun h k => (digestChar h k).zeroExtend 32) s := rfl

/-- `PUSH` absorbs its byte. -/
theorem exec_push_absorbs {b : Byte} {s : State} (hp : s.phase = .absorb) (hl : s.len ≠ s.lenMax) (hf : s.fill ≤ 63) :
    exec (.push b) s = .next ((absorbByte s b).respond 0) := by
  rw [exec, execPush, inPhase_of_eq hp, if_neg hl, if_neg (by omega)]

/-- `PUSH` at the length limit. -/
theorem exec_push_overflows {b : Byte} {s : State} (hp : s.phase = .absorb) (hl : s.len = s.lenMax) :
    exec (.push b) s = .next (s.faultEntry .lengthOverflow (encode (.push b))) := by
  rw [exec, execPush, inPhase_of_eq hp, if_pos hl, raise_eq]

/-- `PUSH` in another phase. -/
theorem exec_push_protocol {b : Byte} {s : State} (hp : s.phase ≠ .absorb) :
    exec (.push b) s = .next (s.faultEntry .protocolError (encode (.push b))) := by
  rw [exec, execPush, inPhase_of_ne hp]

/-- `FINAL` closes the message. -/
theorem exec_final_closes {s : State} (hp : s.phase = .absorb) (hf : s.fill ≤ 63) :
    exec .final s = .next (((closeMessage s).setPhase .done).respond 0) := by
  rw [exec, execFinal, inPhase_of_eq hp, if_neg (by omega)]

/-- `FINAL` in another phase. -/
theorem exec_final_protocol {s : State} (hp : s.phase ≠ .absorb) :
    exec .final s = .next (s.faultEntry .protocolError (encode .final)) := by
  rw [exec, execFinal, inPhase_of_ne hp]

/-- The step on a legal word. -/
theorem step_legal {s : State} {cw : CmdWord} {rest : List HostEvent} {i : Instr}
    (hp : s.port = .command cw :: rest) (hd : decode cw = .legal i) : step s = exec i { s with port := rest } := by
  simp only [step, nextEvent, hp, handleEvent, execute, hd]

/-- The step on a reserved word. -/
theorem step_reserved {s : State} {cw : CmdWord} {rest : List HostEvent} {r : Reserved}
    (hp : s.port = .command cw :: rest) (hd : decode cw = .reserved r) :
    step s = .next (({ s with port := rest } : State).faultEntry .illegalCommand cw) := by
  simp only [step, nextEvent, hp, handleEvent, execute, hd, raise_eq]

/-- A run of `k + 1` steps whose first step answers `t` is a run of `k` steps from `t`. -/
theorem core_run_succ {s t : State} (h : step s = .next t) (k : Nat) :
    Sys2Proof.core.run (k + 1) s = Sys2Proof.core.run k t := by
  have e : Sys2Proof.core.step s = .next t := h
  simp only [Host.Core.run, e]

/-- No step of a run. -/
theorem core_run_zero (s : State) : Sys2Proof.core.run 0 s = .next s := rfl

/-- A fault the command `i` takes in `s`: the one its checks find first (R77, R171), never on a state that accepts it. -/
def TakesFault (i : Instr) (s : State) (c : FaultCode) : Prop :=
  match c with
  | .illegalCommand => i.wf = false
  | .protocolError => i.wf = true ∧
      ((s.phase ≠ .absorb ∧ ((∃ b, i = .push b) ∨ i = .final)) ∨
       (s.phase ≠ .done ∧ ((∃ n, i = .rdw n) ∨ (∃ n, i = .rdb n) ∨ ∃ n, i = .rdhex n)))
  | .lengthOverflow => s.phase = .absorb ∧ s.len = s.lenMax ∧ ∃ b, i = .push b

/-- Everything a command can do when it answers a next state. -/
theorem exec_next {i : Instr} {s t : State} (h : exec i s = .next t) :
    (∃ c, TakesFault i s c ∧ t = s.faultEntry c (encode i)) ∨
    (i = .init ∧ t = ({ s with h := iv, len := 0, fill := 0 }.leaveFault).respond 0) ∨
    (∃ b, i = .push b ∧ s.phase = .absorb ∧ s.len ≠ s.lenMax ∧ s.fill ≤ 63 ∧ t = (absorbByte s b).respond 0) ∨
    (i = .final ∧ s.phase = .absorb ∧ s.fill ≤ 63 ∧ t = ((closeMessage s).setPhase .done).respond 0) ∨
    (((i.wf = true ∧ s.phase = .done ∧ ((∃ n, i = .rdw n) ∨ (∃ n, i = .rdb n) ∨ ∃ n, i = .rdhex n)) ∨ i = .stat) ∧
      ∃ d, t = s.respond d) := by
  cases i with
  | init => exact .inr (.inl ⟨rfl, execInit_next h⟩)
  | push b =>
    obtain ⟨hp, rfl⟩ | ⟨hp, hl, rfl⟩ | ⟨hp, hl, hf, rfl⟩ := execPush_next h
    · exact .inl ⟨.protocolError, ⟨rfl, .inl ⟨hp, .inl ⟨b, rfl⟩⟩⟩, rfl⟩
    · exact .inl ⟨.lengthOverflow, ⟨hp, hl, b, rfl⟩, rfl⟩
    · exact .inr (.inr (.inl ⟨b, rfl, hp, hl, hf, rfl⟩))
  | final =>
    obtain ⟨hp, rfl⟩ | ⟨hp, hf, rfl⟩ := execFinal_next h
    · exact .inl ⟨.protocolError, ⟨rfl, .inl ⟨hp, .inr rfl⟩⟩, rfl⟩
    · exact .inr (.inr (.inr (.inl ⟨rfl, hp, hf, rfl⟩)))
  | rdw n =>
    have h' : execRdw n s = .next t := h
    unfold execRdw at h'
    obtain ⟨hn, e⟩ | ⟨hn, hp, e⟩ | ⟨hn, hp, e⟩ := readView_cases 5 n (encode (.rdw n)) Words5.get s <;>
      rw [e] at h' <;> obtain rfl := Host.Outcome.next.inj h'
    · exact .inl ⟨.illegalCommand, by simp [TakesFault, Instr.wf]; omega, rfl⟩
    · exact .inl ⟨.protocolError, ⟨by simp [Instr.wf]; omega, .inr ⟨hp, .inl ⟨n, rfl⟩⟩⟩, rfl⟩
    · exact .inr (.inr (.inr (.inr ⟨.inl ⟨by simp [Instr.wf]; omega, hp, .inl ⟨n, rfl⟩⟩, _, rfl⟩)))
  | rdb n =>
    have h' : execRdb n s = .next t := h
    unfold execRdb at h'
    obtain ⟨hn, e⟩ | ⟨hn, hp, e⟩ | ⟨hn, hp, e⟩ :=
      readView_cases 20 n (encode (.rdb n)) (fun h j => (digestByte h j).zeroExtend 32) s <;>
      rw [e] at h' <;> obtain rfl := Host.Outcome.next.inj h'
    · exact .inl ⟨.illegalCommand, by simp [TakesFault, Instr.wf]; omega, rfl⟩
    · exact .inl ⟨.protocolError, ⟨by simp [Instr.wf]; omega, .inr ⟨hp, .inr (.inl ⟨n, rfl⟩)⟩⟩, rfl⟩
    · exact .inr (.inr (.inr (.inr ⟨.inl ⟨by simp [Instr.wf]; omega, hp, .inr (.inl ⟨n, rfl⟩)⟩, _, rfl⟩)))
  | rdhex n =>
    have h' : execRdhex n s = .next t := h
    unfold execRdhex at h'
    obtain ⟨hn, e⟩ | ⟨hn, hp, e⟩ | ⟨hn, hp, e⟩ :=
      readView_cases 40 n (encode (.rdhex n)) (fun h k => (digestChar h k).zeroExtend 32) s <;>
      rw [e] at h' <;> obtain rfl := Host.Outcome.next.inj h'
    · exact .inl ⟨.illegalCommand, by simp [TakesFault, Instr.wf]; omega, rfl⟩
    · exact .inl ⟨.protocolError, ⟨by simp [Instr.wf]; omega, .inr ⟨hp, .inr (.inr ⟨n, rfl⟩)⟩⟩, rfl⟩
    · exact .inr (.inr (.inr (.inr ⟨.inl ⟨by simp [Instr.wf]; omega, hp, .inr (.inr ⟨n, rfl⟩)⟩, _, rfl⟩)))
  | stat => exact .inr (.inr (.inr (.inr ⟨.inr rfl, _, execStat_next h⟩)))

/-- Everything a step can do when it answers a next state. -/
theorem step_next {s t : State} (h : step s = .next t) :
    (s.port = [] ∧ t = s) ∨
    (∃ rest, s.port = .reset :: rest ∧ t = ({ s with port := rest } : State).applyReset) ∨
    (∃ cw rest r, s.port = .command cw :: rest ∧ decode cw = .reserved r ∧
      t = ({ s with port := rest } : State).faultEntry .illegalCommand cw) ∨
    (∃ cw rest i, s.port = .command cw :: rest ∧ decode cw = .legal i ∧ exec i { s with port := rest } = .next t) := by
  unfold step nextEvent at h
  split at h
  · rename_i hp
    exact .inl ⟨hp, (Host.Outcome.next.inj h).symm⟩
  · rename_i e rest hp
    cases e with
    | reset => exact .inr (.inl ⟨rest, hp, (Host.Outcome.next.inj h).symm⟩)
    | command cw =>
      simp only [handleEvent, execute] at h
      split at h
      · rename_i i hd
        exact .inr (.inr (.inr ⟨cw, rest, i, hp, hd, h⟩))
      · rename_i r hd
        exact .inr (.inr (.inl ⟨cw, rest, r, hp, hd, (Host.Outcome.next.inj h).symm⟩))

end Sys2Proof.Machine
end

