-- ==== Sys2Proof/Laws/Hash.lean ====
section
/-! SUPPORT. The small lemmas of `CompressBlock` and of the digest state after a list of blocks. `compressBlock` is
irreducible, so that no proof computes 80 rounds by accident: unfold it with `compressBlock_eq`. -/

namespace Sys2Proof.Machine

open Sys2Proof

/-- `CompressBlock` by its definition (R137). -/
theorem compressBlock_eq (S : Words5) (P : Block) : compressBlock S P = S.add (rounds S (schedule P)) := by
  unfold compressBlock; rfl

/-- No block changes nothing. -/
@[simp] theorem absorbBlocks_nil (S : Words5) : absorbBlocks S [] = S := rfl

/-- The first block first. -/
@[simp] theorem absorbBlocks_cons (S : Words5) (P : Block) (Ps : List Block) :
    absorbBlocks S (P :: Ps) = absorbBlocks (compressBlock S P) Ps := rfl

/-- Absorbing one list of blocks after another. -/
theorem absorbBlocks_append (S : Words5) (Ps Qs : List Block) :
    absorbBlocks S (Ps ++ Qs) = absorbBlocks (absorbBlocks S Ps) Qs := List.foldl_append

/-- No bytes make no block (R98). -/
@[simp] theorem split64_nil : split64 [] = [] := rfl

end Sys2Proof.Machine
end

