-- ==== Sys2Proof/Laws/Memory.lean ====
section
/-! SUPPORT. Reading and writing one element of `BLK` and of `W`: read after write, and that a write leaves every other
element alone. `BLK` and `W` are vectors of fixed length, so two equal buffers are equal data and there is no canonical
form to keep. -/

namespace Sys2Proof.Machine

open Sys2Proof

/-- Read after a one-byte write. -/
theorem memRead1_memWrite1 (blk : Block) (p q : Nat) (b : Byte) :
    memRead1 (memWrite1 blk p b) q = if q = p ∧ p < 64 then b else memRead1 blk q := by
  unfold memRead1 memWrite1
  simp only [Vector.getElem?_setIfInBounds]
  by_cases h : p = q
  · subst h
    by_cases h2 : p < 64 <;> simp [h2]
  · have h' : ¬ q = p := fun e => h e.symm
    simp [h, h']

/-- Beyond `BLK[63]` there is nothing to read: the default, whatever the buffer. -/
theorem memRead1_beyond (blk : Block) (q : Nat) (h : 64 ≤ q) : memRead1 blk q = 0 := by
  unfold memRead1
  rw [Vector.getElem?_eq_none (by omega)]; rfl

/-- Two buffers are equal when every byte reads the same. -/
theorem block_ext {a b : Block} (h : ∀ p, p < 64 → memRead1 a p = memRead1 b p) : a = b := by
  apply Vector.ext
  intro i hi
  have := h i hi
  unfold memRead1 at this
  simpa [hi] using this

/-- A byte of a buffer given by a function of the offset. -/
theorem memRead1_ofFn (f : Fin 64 → Byte) (p : Nat) :
    memRead1 (Vector.ofFn f) p = if h : p < 64 then f ⟨p, h⟩ else 0 := by
  unfold memRead1
  by_cases h : p < 64 <;> simp [h]

/-- Read after `n` zero bytes written from offset `p` on. -/
theorem memRead1_zeroFill (blk : Block) (p n q : Nat) (h : p + n ≤ 64) :
    memRead1 (zeroFill blk p n) q = if p ≤ q ∧ q < p + n then 0x00 else memRead1 blk q := by
  induction n generalizing blk p with
  | zero => rw [zeroFill, if_neg (by omega)]
  | succ n ih =>
    rw [zeroFill, ih _ _ (by omega), memRead1_memWrite1]
    by_cases h1 : p + 1 ≤ q ∧ q < p + 1 + n
    · rw [if_pos h1, if_pos (by omega)]
    · rw [if_neg h1]
      by_cases h2 : q = p
      · rw [if_pos (by omega), if_pos (by omega)]
      · rw [if_neg (by omega), if_neg (by omega)]

/-- Read after a list of bytes written from offset `p` on. -/
theorem memRead1_memWriteBytes (blk : Block) (p q : Nat) (bs : List Byte) (h : p + bs.length ≤ 64) :
    memRead1 (memWriteBytes blk p bs) q = if p ≤ q ∧ q < p + bs.length then bs.getD (q - p) 0 else memRead1 blk q := by
  induction bs generalizing blk p with
  | nil => rw [memWriteBytes, if_neg (by simp)]
  | cons b bs ih =>
    rw [List.length_cons] at h
    rw [memWriteBytes, ih _ _ (by omega), memRead1_memWrite1, List.length_cons]
    by_cases h1 : p + 1 ≤ q ∧ q < p + 1 + bs.length
    · rw [if_pos h1, if_pos (by omega)]
      obtain ⟨k, hk⟩ : ∃ k, q - p = k + 1 := ⟨q - p - 1, by omega⟩
      rw [hk, List.getD_cons_succ]
      congr 1
      omega
    · rw [if_neg h1]
      by_cases h2 : q = p
      · subst h2
        rw [if_pos (by omega), if_pos (by omega), Nat.sub_self, List.getD_cons_zero]
      · rw [if_neg (by omega), if_neg (by omega)]

/-- Read of `W` after a write of one word. -/
theorem wordAt_setIfInBounds (w : Vector Word 80) (j t : Nat) (v : Word) :
    wordAt (w.setIfInBounds j v) t = if t = j ∧ j < 80 then v else wordAt w t := by
  unfold wordAt
  simp only [Vector.getElem?_setIfInBounds]
  by_cases h : j = t
  · subst h
    by_cases h2 : j < 80 <;> simp [h2]
  · have h' : ¬ t = j := fun e => h e.symm
    simp [h, h']

end Sys2Proof.Machine
end

