-- ==== Sys2Proof/Laws/PerInstr.lean ====
section
/-! SUPPORT. Per-instruction laws, one lemma per constructor. Family `Fields`: the encoder puts the operation code,
`0b0000` and the operand in the three fields of format `C` (30_encoding.md R72), so that the decoder's fields read them
back; `decode_encode_fields` hands the round trip to `decodeFields`. -/

namespace Sys2Proof.Laws

open Sys2Proof

/-- Each field of a word assembled from its fields. -/
theorem fields_of_assembled (op : BitVec 4) (arg : Byte) :
    opField (BitVec.ofNat 16 (op.toNat * 4096 + arg.toNat)) = op ∧
    zeroField (BitVec.ofNat 16 (op.toNat * 4096 + arg.toNat)) = 0#4 ∧
    argField (BitVec.ofNat 16 (op.toNat * 4096 + arg.toNat)) = arg := by
  have h1 := op.isLt
  have h2 := arg.isLt
  refine ⟨?_, ?_, ?_⟩ <;> apply BitVec.eq_of_toNat_eq <;>
    simp [opField, zeroField, argField, Nat.shiftRight_eq_div_pow] <;> omega

/-- A command word is its three fields side by side (R72). -/
theorem word_of_fields (cw : CmdWord) :
    cw.toNat = (opField cw).toNat * 4096 + (zeroField cw).toNat * 256 + (argField cw).toNat := by
  have h := cw.isLt
  simp [opField, zeroField, argField, Nat.shiftRight_eq_div_pow]
  omega

/-- Decoding a word assembled from its fields. -/
theorem decode_encode_fields (i : Instr) : decode (encode i) = decodeFields i.op 0#4 i.arg := by
  obtain ⟨h1, h2, h3⟩ := fields_of_assembled i.op i.arg
  rw [decode, encode, h1, h2, h3]

/-- An assembled word as the operation code's word plus the operand: `cw = op * 4096 + arg` (R80). -/
theorem assembled_eq_add (op : BitVec 4) (arg : Byte) :
    BitVec.ofNat 16 (op.toNat * 4096 + arg.toNat) = BitVec.ofNat 16 (op.toNat * 4096) + arg.zeroExtend 16 := by
  have h := arg.isLt
  apply BitVec.eq_of_toNat_eq
  simp

/-- The word of `PUSH b` (R74). -/
theorem encode_push (b : Byte) : encode (.push b) = 0x2000#16 + b.zeroExtend 16 := assembled_eq_add 2#4 b

/-- The word of `RDW i` (R74). -/
theorem encode_rdw (i : Byte) : encode (.rdw i) = 0x4000#16 + i.zeroExtend 16 := assembled_eq_add 4#4 i

/-- The word of `RDB j` (R74). -/
theorem encode_rdb (j : Byte) : encode (.rdb j) = 0x5000#16 + j.zeroExtend 16 := assembled_eq_add 5#4 j

/-- The word of `RDHEX k` (R74). -/
theorem encode_rdhex (k : Byte) : encode (.rdhex k) = 0x6000#16 + k.zeroExtend 16 := assembled_eq_add 6#4 k

namespace Fields

/-- The encoder's three fields. -/
def Statement (i : Instr) : Prop :=
  opField (encode i) = i.op ∧ zeroField (encode i) = 0#4 ∧ argField (encode i) = i.arg

theorem init : Statement .init := fields_of_assembled _ _
theorem push (b : Byte) : Statement (.push b) := fields_of_assembled _ _
theorem final : Statement .final := fields_of_assembled _ _
theorem rdw (i : Byte) : Statement (.rdw i) := fields_of_assembled _ _
theorem rdb (j : Byte) : Statement (.rdb j) := fields_of_assembled _ _
theorem rdhex (k : Byte) : Statement (.rdhex k) := fields_of_assembled _ _
theorem stat : Statement .stat := fields_of_assembled _ _

end Fields

end Sys2Proof.Laws
end

