-- ==== Sys2Proof/Tests/Slice0.lean ====
section
/-! SUPPORT. The model's own tests. Expected values come from 95_test_vectors.md, or from the rule named; each test runs
one step or one operation. The last part shows, for every statement with hypotheses, states and operands that meet
them. -/

namespace Sys2Proof.Tests

open Sys2Proof Sys2Proof.Machine

/-! ## Helpers -/

/-- What a view of the next state is, if there is one. -/
def after {α : Type} (o : Result) (f : State → α) : Option α :=
  match o with
  | .next t => some (f t)
  | .fault _ => none
  | .refused _ => none

/-- An open transaction with these counters. -/
def absorbing (fill len : Nat) (n : LenBits := LenBits.default) : State :=
  { State.resetFor n with h := iv, phase := .absorb, fill := fill, len := len }

/-- The instance with the smallest parameter. -/
def oneBit : LenBits := ⟨1, by decide⟩

/-- A state in this phase. -/
def inState (p : Phase) : State := { State.reset with phase := p }

/-- The digest of "abc" (95_test_vectors.md section 6). -/
def abcDigest : Words5 := ⟨0xa9993e36, 0x4706816a, 0xba3e2571, 0x7850c26c, 0x9cd0d89d⟩

/-- After `HASH "abc"`. -/
def abcDone : State := { State.reset with h := abcDigest, phase := .done, len := 3 }

/-- A state in phase `FAULT` that records `PUSH 0x61` in `IDLE` (section 7, group A). -/
def faulted : State := { State.reset with phase := .fault, err := some .protocolError, badcmd := 0x2061 }

/-- The host presents one word in this state. -/
def withWord (s : State) (cw : CmdWord) : State := { s with port := [.command cw] }

/-- The message bytes `61 62 63`. -/
def abc : List Byte := [0x61, 0x62, 0x63]

/-- A state that has absorbed `M`, all else as after reset. -/
def absorbed (M : List Byte) (n : LenBits := LenBits.default) : State :=
  { State.resetFor n with
    phase := .absorb, len := M.length, fill := M.length % 64, h := absorbBlocks iv (split64 M),
    blk := Vector.ofFn fun p => M.getD (64 * (M.length / 64) + p.val) 0 }

/-! ## WellFormed: each check refuses an ill-formed term -/

theorem test_wf_rdw_5 : (Instr.rdw 5).wf = false ∧ (Instr.rdw 4).wf = true := by decide
theorem test_wf_rdb_20 : (Instr.rdb 20).wf = false ∧ (Instr.rdb 19).wf = true := by decide
theorem test_wf_rdhex_40 : (Instr.rdhex 40).wf = false ∧ (Instr.rdhex 39).wf = true := by decide
theorem test_wf_rest : Instr.init.wf = true ∧ (Instr.push 0xFF).wf = true ∧ Instr.final.wf = true ∧
    Instr.stat.wf = true := by decide

/-! ## Decode: one word a row, written bit by bit from R74 (op, zero, arg), and the reserved classes of R76 -/

theorem test_decode_init : decode 0b0001000000000000#16 = .legal .init := by decide
theorem test_decode_push : decode 0b0010000001100001#16 = .legal (.push 0x61) := by decide
theorem test_decode_final : decode 0b0011000000000000#16 = .legal .final := by decide
theorem test_decode_rdw : decode 0b0100000000000100#16 = .legal (.rdw 4) := by decide
theorem test_decode_rdb : decode 0b0101000000010011#16 = .legal (.rdb 19) := by decide
theorem test_decode_rdhex : decode 0b0110000000100111#16 = .legal (.rdhex 39) := by decide
theorem test_decode_stat : decode 0b0111000000000000#16 = .legal .stat := by decide

/-- Section 7, group B. -/
theorem test_decode_reserved :
    decode 0x0000#16 = .reserved .opZero ∧ decode 0x8000#16 = .reserved .opHigh ∧ decode 0xffff#16 = .reserved .opHigh ∧
    decode 0x1001#16 = .reserved .argNonzero ∧ decode 0x3080#16 = .reserved .argNonzero ∧
    decode 0x2161#16 = .reserved .zeroNonzero ∧ decode 0x4005#16 = .reserved .indexRange ∧
    decode 0x5014#16 = .reserved .indexRange ∧ decode 0x6028#16 = .reserved .indexRange := by decide

/-- R80: `cw = op * 4096 + arg`. -/
theorem test_encode : encode (.push 0x61) = 0x2061 ∧ encode (.rdhex 39) = 0x6027 ∧ encode .stat = 0x7000 := by decide

theorem test_table_word : decodeTableWord 16 0x2061 = some (.push 0x61) ∧ decodeTableWord 16 0x7100 = none := by decide

/-! ## One step per command (section 7, groups A and C; section 6) -/

theorem test_init_clears_fault :
    after (step (withWord faulted 0x1000)) (fun t => (t.response, t.phase, t.err, t.badcmd, t.status)) =
      some (some ⟨false, 0⟩, .absorb, none, 0, 0x00000001) := by decide
theorem test_init_loads_iv : after (exec .init abcDone) (fun t => (t.h, t.len, t.fill)) =
    some (⟨0x67452301, 0xEFCDAB89, 0x98BADCFE, 0x10325476, 0xC3D2E1F0⟩, 0, 0) := by decide

theorem test_push_stores : after (exec (.push 0x64) (absorbing 3 3)) (fun t =>
    (t.response, memRead1 t.blk 3, memRead1 t.blk 4, t.fill, t.len)) = some (some ⟨false, 0⟩, 0x64, 0, 4, 4) := by decide
theorem test_push_overflow : after (exec (.push 0x62) (absorbing 1 1 oneBit)) (fun t => (t.response, t.status)) =
    some (some ⟨true, 3⟩, 0x20620133) := by decide

/-- The empty message, section 1.1. -/
theorem test_final_empty : after (exec .final (absorbing 0 0)) (fun t => (t.h, t.phase, t.fill)) =
    some (⟨0xda39a3ee, 0x5e6b4b0d, 0x3255bfef, 0x95601890, 0xafd80709⟩, .done, 0) := by decide +kernel
theorem test_final_in_idle : after (exec .final State.reset) (fun t => (t.response, t.status)) =
    some (some ⟨true, 2⟩, 0x30000023) := by decide

theorem test_rdw : after (exec (.rdw 4) abcDone) (fun t => (t.response, t.phase)) =
    some (some ⟨false, 0x9cd0d89d⟩, .done) := by decide
/-- Group C: a reserved index wins over the phase. -/
theorem test_rdw_5 : after (step (withWord (absorbing 0 0) 0x4005)) (fun t => (t.response, t.status)) =
    some (some ⟨true, 1⟩, 0x40050013) := by decide

theorem test_rdb : after (exec (.rdb 17) abcDone) (·.response) = some (some ⟨false, 0xd0⟩) := by decide
theorem test_rdb_in_idle : after (exec (.rdb 0) State.reset) (fun t => (t.response, t.status)) =
    some (some ⟨true, 2⟩, 0x50000023) := by decide

theorem test_rdhex_digit : after (exec (.rdhex 1) abcDone) (·.response) = some (some ⟨false, 0x39⟩) := by decide
theorem test_rdhex_letter : after (exec (.rdhex 38) abcDone) (·.response) = some (some ⟨false, 0x39⟩) ∧
    after (exec (.rdhex 39) abcDone) (·.response) = some (some ⟨false, 0x64⟩) := by decide

theorem test_stat : after (exec .stat faulted) (·.response) = some (some ⟨false, 0x20610023⟩) := by decide
theorem test_stat_fill : after (exec .stat (absorbing 63 63)) (·.response) = some (some ⟨false, 0x00003f01⟩) := by decide

/-- Group A: a second fault answers its own code and leaves the record. -/
theorem test_second_fault : after (step (withWord faulted 0x0000)) (fun t => (t.response, t.status)) =
    some (some ⟨true, 1⟩, 0x20610023) := by decide

/-! ## Operations (sections 2 to 5) -/

theorem test_padlen : (bytesBe64 (BitVec.ofNat 64 0x20000000 * 8)) = [0, 0, 0, 1, 0, 0, 0, 0] := by decide
theorem test_loadw : memRead4 (memWriteBytes (Vector.replicate 64 0) 0 [0x61, 0x62, 0x63, 0x80]) 0 = 0x61626380 := by
  decide
theorem test_rotl : rotl32 0x80000000 1 = 0x00000001 ∧ rotl32 0x01234567 5 = 0x2468ace0 := by decide
theorem test_functions : ch 0xf0f0f0f0 0xcccccccc 0xaaaaaaaa = 0xcacacaca ∧
    parity 0xf0f0f0f0 0xcccccccc 0xaaaaaaaa = 0x96969696 ∧ maj 0xf0f0f0f0 0xcccccccc 0xaaaaaaaa = 0xe8e8e8e8 := by decide
/-- Section 4.2, start state G, at both ends of every stage. -/
theorem test_round_stages :
    [0, 19, 20, 39, 40, 59, 60, 79].map (fun t =>
      (roundFn t ⟨0x01234567, 0x89abcdef, 0xfedcba98, 0x76543210, 0x0f1e2d3c⟩ 0xdeadbeef).a) =
    [0x6b93cd3c, 0x6b93cd3c, 0x8231ca13, 0x8231ca13, 0xa02d107f, 0xa02d107f, 0xddbaa048, 0xddbaa048] := by decide
/-- Section 3.2: the padded message "abc". -/
theorem test_schedule_abc : (schedule (blockAt (padBytes abc) 0)).getD 79 0 = 0x822e0879 := by decide +kernel
/-- Section 5.2: the 56-byte message of bytes 61, two blocks. -/
theorem test_hash_two_blocks : hashMessage (List.replicate 56 0x61) =
    ⟨0xc2db330f, 0x6083854c, 0x99d4b5bf, 0xb6e8f29f, 0x201be699⟩ := by decide +kernel

/-! ## The hypotheses of the statements are met -/

theorem absorbed_absorbing (M : List Byte) (n : LenBits) : Absorbing M (absorbed M n) where
  phase_eq := rfl
  len_eq := rfl
  fill_eq := rfl
  h_eq := rfl
  blk_eq := by
    intro p hp
    have h : p < M.length % 64 := hp
    have e : (absorbed M n).blk = Vector.ofFn fun p => M.getD (64 * (M.length / 64) + p.val) 0 := rfl
    rw [e, memRead1_ofFn, dif_pos (by omega)]
  err_eq := rfl
  badcmd_eq := rfl

/-- `DecodeAndEncodeAgree`: well-formed instructions, at the last legal index. -/
theorem test_witness_DecodeAndEncodeAgree : (Instr.rdhex 39).wf = true ∧ decode 0x6027#16 = .legal (.rdhex 39) := by decide

/-- `ReservedWordsAreTheFiveClasses`: a reserved word presented outside and inside `FAULT`. -/
theorem test_witness_ReservedWordsAreTheFiveClasses :
    decode 0x6028#16 = .reserved .indexRange ∧
    (withWord State.reset 0x6028).port = .command 0x6028 :: [] ∧ (withWord State.reset 0x6028).phase ≠ .fault ∧
    (withWord faulted 0x6028).port = .command 0x6028 :: [] ∧ (withWord faulted 0x6028).phase = .fault := by decide

/-- `StepRunsTheDecodedCommand`: a legal word presented, and a well-formed instruction. -/
theorem test_witness_StepRunsTheDecodedCommand :
    (withWord State.reset 0x2061).port = .command 0x2061 :: [] ∧ decode 0x2061#16 = .legal (.push 0x61) ∧
    (Instr.rdw 4).wf = true := by decide

theorem test_witness_IdleStepKeepsAllState : abcDone.port = [] := by decide

/-- `ResetLeavesTheControlState`: the reset applied in phase `FAULT`. -/
theorem test_witness_ResetLeavesTheControlState :
    ({ faulted with port := [.reset, .command 0x7000] } : State).port = .reset :: [.command 0x7000] := by decide

/-- `InitOpensTransaction`: another word with `op = 1`. -/
theorem test_witness_InitOpensTransaction : (0x1001#16).extractLsb' 12 4 = 0x1#4 ∧ (0x1001#16 : CmdWord) ≠ 0x1000#16 := by
  decide

/-- `PushAbsorbsOneByte`: the first byte, the byte before the last of a block, the last, the one beyond `LEN_MAX`, and
a phase that accepts none. -/
theorem test_witness_PushAbsorbsOneByte :
    ((absorbing 0 0).phase = .absorb ∧ (absorbing 0 0).len ≠ (absorbing 0 0).lenMax ∧ (absorbing 0 0).fill < 63) ∧
    ((absorbing 62 62).len ≠ (absorbing 62 62).lenMax ∧ (absorbing 62 62).fill < 63) ∧
    ((absorbing 63 63).phase = .absorb ∧ (absorbing 63 63).len ≠ (absorbing 63 63).lenMax ∧
      (absorbing 63 63).fill = 63) ∧
    ((absorbing 1 1 oneBit).phase = .absorb ∧ (absorbing 1 1 oneBit).len = (absorbing 1 1 oneBit).lenMax) ∧
    abcDone.phase ≠ .absorb := by decide

/-- `FinalPadsAndCloses`: both ends of both cases of R100, a phase that does not accept it, and a command in `DONE`. -/
theorem test_witness_FinalPadsAndCloses :
    ((absorbing 0 0).phase = .absorb ∧ (absorbing 0 0).fill ≤ 55) ∧ (absorbing 55 55).fill ≤ 55 ∧
    ((absorbing 56 56).phase = .absorb ∧ 56 ≤ (absorbing 56 56).fill ∧ (absorbing 56 56).fill ≤ 63) ∧
    (56 ≤ (absorbing 63 63).fill ∧ (absorbing 63 63).fill ≤ 63) ∧ State.reset.phase ≠ .absorb ∧
    abcDone.phase = .done ∧ Instr.stat ≠ .init ∧ after (exec .stat abcDone) (·.h) = some abcDigest := by decide

/-- `RdwAnswersDigestWord`: the last legal index, the first reserved one, and another phase. -/
theorem test_witness_RdwAnswersDigestWord :
    ((4 : Byte).toNat ≤ 4 ∧ abcDone.phase = .done) ∧ 4 < (5 : Byte).toNat ∧ State.reset.phase ≠ .done := by decide
theorem test_witness_RdbAnswersDigestByte :
    ((19 : Byte).toNat ≤ 19 ∧ abcDone.phase = .done) ∧ 19 < (20 : Byte).toNat ∧ (absorbing 0 0).phase ≠ .done := by decide
theorem test_witness_RdhexAnswersDigestCharacter :
    ((39 : Byte).toNat ≤ 39 ∧ abcDone.phase = .done) ∧ 39 < (40 : Byte).toNat ∧ faulted.phase ≠ .done := by decide

/-- `StatAnswersStatus`: another word with `op = 7`. -/
theorem test_witness_StatAnswersStatus : (0x7100#16).extractLsb' 12 4 = 0x7#4 ∧ (0x7100#16 : CmdWord) ≠ 0x7000#16 := by
  decide

/-- `FaultEntryRecordsTheFirstFault`: each code, outside and inside `FAULT`. -/
theorem test_witness_FaultEntryRecordsTheFirstFault :
    State.reset.phase ≠ .fault ∧ faulted.phase = .fault ∧
    ∀ code : FaultCode, ∃ n : Word,
      n = (match code with | .illegalCommand => 1 | .protocolError => 2 | .lengthOverflow => 3) :=
  ⟨by decide, by decide, fun _ => ⟨_, rfl⟩⟩

/-- `FaultingCommandChangesNothingElse`: a command that faults, outside and inside `FAULT`. -/
theorem test_witness_FaultingCommandChangesNothingElse :
    (∃ t, step (withWord State.reset 0x2061) = .next t ∧ t.response = some ⟨true, 2⟩) ∧ State.reset.phase ≠ .fault ∧
    (∃ t, step (withWord faulted 0x3000) = .next t ∧ t.response = some ⟨true, 2⟩) ∧ faulted.phase = .fault :=
  ⟨⟨_, rfl, rfl⟩, by decide, ⟨_, rfl, rfl⟩, by decide⟩

/-- `NextPhaseTable`: a word presented with the buffer at its last legal count. -/
theorem test_witness_NextPhaseTable :
    (withWord (absorbing 63 63) 0x3000).port = .command 0x3000 :: [] ∧ (withWord (absorbing 63 63) 0x3000).fill ≤ 63 := by
  decide

/-- `OnlyInitLeavesFault`: in `FAULT`, `INIT`, `STAT`, a reserved word and another legal word. -/
theorem test_witness_OnlyInitLeavesFault :
    (withWord faulted 0x1000).phase = .fault ∧ (withWord faulted 0x1000).port = .command 0x1000 :: [] ∧
    (withWord faulted 0x7000).port = .command 0x7000 :: [] ∧ decode 0x0000#16 = .reserved .opZero ∧
    decode 0x4000#16 = .legal (.rdw 0) := by decide

theorem reset_controlInv (n : LenBits) : ControlInv (State.resetFor n) where
  fill_le := Nat.zero_le _
  len_le := Nat.zero_le _
  absorb_fill := by intro h; cases h
  idle_empty := fun _ => ⟨rfl, rfl⟩
  done_empty := fun _ => rfl
  err_iff_fault := by
    constructor
    · intro _ h; cases h
    · intro _; rfl
  badcmd_zero := fun _ => rfl

/-- `ControlInvariantKept` and `StepIsTotal`: a state that meets the invariant, with a word presented, and its step. -/
theorem test_witness_ControlInvariantKept :
    ControlInv (withWord State.reset 0x1000) ∧ ∃ t, step (withWord State.reset 0x1000) = .next t := by
  obtain ⟨a, b, c, d, e, f, g⟩ := reset_controlInv LenBits.default
  exact ⟨⟨a, b, c, d, e, f, g⟩, _, rfl⟩

/-- `FaultRecordSoundKept`: a recorded fault and a step from it. -/
theorem test_witness_FaultRecordSoundKept :
    FaultRecordSound (withWord faulted 0x3000) ∧ ∃ t, step (withWord faulted 0x3000) = .next t :=
  ⟨⟨.push 0x61, by decide, by decide, by decide⟩, _, rfl⟩

/-- `FinalDigestIsImmutable`: `DONE`, another word than `INIT`'s. -/
theorem test_witness_FinalDigestIsImmutable :
    (withWord abcDone 0x4000).phase = .done ∧ (withWord abcDone 0x4000).port = .command 0x4000 :: [] ∧
    (0x4000#16 : CmdWord) ≠ 0x1000#16 ∧ ∃ t, step (withWord abcDone 0x4000) = .next t :=
  ⟨by decide, by decide, by decide, _, rfl⟩

/-- `DigestWrittenOnlyByInitAndAccum`: `INIT`, the 64th `PUSH`, and `FINAL` change `H`. -/
theorem test_witness_DigestWritten_init :
    ∃ t, step (withWord State.reset 0x1000) = .next t ∧ t.h ≠ (withWord State.reset 0x1000).h :=
  ⟨_, rfl, by decide⟩
theorem test_witness_DigestWritten_push :
    after (step (withWord (absorbing 63 63) 0x2061)) (fun t => decide (t.h ≠ iv)) = some true := by decide +kernel
theorem test_witness_DigestWritten_final :
    after (step (withWord (absorbing 0 0) 0x3000)) (fun t => decide (t.h ≠ iv)) = some true := by decide +kernel

theorem test_witness_InstanceParameterNeverChanges :
    ∃ t, step (withWord (State.resetFor oneBit) 0x1000) = .next t ∧ t.lenBits = oneBit := ⟨_, rfl, rfl⟩

/-- `NoResultDependsOnUnspecifiedState`: two states that differ in `A..E`, in `W`, and in a byte beyond `FILL`. -/
theorem test_witness_NoResultDependsOnUnspecifiedState :
    Agree (absorbing 3 3)
      { absorbing 3 3 with wr := iv, w := Vector.replicate 80 1, blk := memWrite1 (absorbing 3 3).blk 3 0xFF } ∧
    (absorbing 3 3).fill ≤ 63 := by
  refine ⟨⟨rfl, rfl, rfl, rfl, rfl, rfl, rfl, rfl, fun _ => rfl, ?_⟩, by decide⟩
  intro p hp
  have h : p < 3 := hp
  rw [memRead1_memWrite1, if_neg (by omega)]

theorem test_witness_RotationWraps : (0 < 1 ∧ 1 < 32) ∧ (0 < 31 ∧ 31 < 32) := by decide
theorem test_witness_BlockBufferAccess : (0 < 64 ∧ 63 < 64) ∧ (0 + 4 ≤ 64 ∧ 60 + 4 ≤ 64) ∧ 0 + 8 ≤ 64 ∧ 56 + 8 ≤ 64 := by
  decide
theorem test_witness_BigEndianPacking : (0 < 4 ∧ 3 < 4) ∧ 0 < 8 ∧ 7 < 8 := by decide
theorem test_witness_LoadAndExpandWriteTheirWords : (0 < 16 ∧ 15 < 16) ∧ (16 ≤ 16 ∧ 16 < 80) ∧ (16 ≤ 79 ∧ 79 < 80) := by
  decide
theorem test_witness_AppendAndMarkWriteOneByte : (absorbing 0 0).fill ≤ 63 ∧ (absorbing 63 63).fill ≤ 63 := by decide
/-- `PadZeroFillsToTheLimit`: both limits, below, at and above them. -/
theorem test_witness_PadZeroFillsToTheLimit : ∀ limit ∈ [56, 64], (limit = 56 ∨ limit = 64) ∧
    (absorbing 1 0).fill ≤ 64 ∧ (absorbing 57 56).fill ≤ 64 ∧ (absorbing 64 63).fill ≤ 64 := by decide
/-- `PadLenWritesTheBitLength`: the longest message of the smallest and of the default instance. -/
theorem test_witness_PadLenWritesTheBitLength : (absorbing 56 1 oneBit).len ≤ (absorbing 56 1 oneBit).lenMax ∧
    (absorbing 56 (2 ^ 61 - 1)).len ≤ (absorbing 56 (2 ^ 61 - 1)).lenMax := by decide
theorem test_witness_ScheduleIsExpanded : 0 < 16 ∧ 15 < 16 ∧ (16 ≤ 16 ∧ 16 < 80) ∧ (16 ≤ 79 ∧ 79 < 80) := by decide
/-- `StageSelection`: both ends of every stage. -/
theorem test_witness_StageSelection : (0 < 20 ∧ 19 < 20) ∧ (20 ≤ 20 ∧ 39 < 40) ∧ (40 ≤ 40 ∧ 59 < 60) ∧
    (60 ≤ 60 ∧ 79 < 80) := by decide
theorem test_witness_RoundFunctionsBitByBit : 0 < 32 ∧ 31 < 32 := by decide
theorem test_witness_SeedAndRoundWriteWorkingRegisters : 0 < 80 ∧ 79 < 80 := by decide
theorem test_witness_PadMeetsTheFramerContract : abc.length < 2 ^ 61 ∧ ([] : List Byte).length < 2 ^ 61 := by decide

/-- `PushExtendsTheMessage`: into the empty message, and the byte that completes a block. -/
theorem test_witness_PushExtendsTheMessage :
    (Absorbing [] (absorbed [] oneBit) ∧ ([] : List Byte).length < (absorbed [] oneBit).lenMax) ∧
    Absorbing (List.replicate 63 0x61) (absorbed (List.replicate 63 0x61)) ∧
    (List.replicate 63 (0x61 : Byte)).length < (absorbed (List.replicate 63 0x61)).lenMax :=
  ⟨⟨absorbed_absorbing _ _, by decide⟩, absorbed_absorbing _ _, by decide⟩

/-- `FinalProducesTheHash`: the longest message of the smallest instance, 55, 56 and 64 bytes. -/
theorem test_witness_FinalProducesTheHash :
    (Absorbing [0x61] (absorbed [0x61] oneBit) ∧ [(0x61 : Byte)].length ≤ (absorbed [0x61] oneBit).lenMax) ∧
    ∀ n ∈ [55, 56, 64], Absorbing (List.replicate n 0x61) (absorbed (List.replicate n 0x61)) ∧
      (List.replicate n (0x61 : Byte)).length ≤ (absorbed (List.replicate n 0x61)).lenMax :=
  ⟨⟨absorbed_absorbing _ _, by decide⟩, fun n hn => ⟨absorbed_absorbing _ _, by
    rw [List.length_replicate]
    show n ≤ 2 ^ 61 - 1
    simp only [List.mem_cons, List.not_mem_nil, or_false] at hn
    omega⟩⟩

/-- `TransactionComputesHash`: the transaction of "abc", with more words after it. -/
theorem test_witness_TransactionComputesHash :
    ({ abcDone with port := (transactionWords abc).map HostEvent.command ++ [.command 0x4000] } : State).port =
      (transactionWords abc).map HostEvent.command ++ [.command 0x4000] ∧ abc.length ≤ abcDone.lenMax ∧
    transactionWords abc = [0x1000, 0x2061, 0x2062, 0x2063, 0x3000] := by decide

/-- `HexIsTheHexOfTheBytes`: the last byte, in `DONE`. -/
theorem test_witness_HexIsTheHexOfTheBytes : 19 ≤ 19 ∧ abcDone.phase = .done := by decide

/-- `FortyLowercaseHexCharacters`: the first and the last character of a word, and a character of a digest. -/
theorem test_witness_FortyLowercaseHexCharacters : (0 < 8 ∧ 7 < 8) ∧ (0x61 : Byte) ∈ toHex abcDigest := by decide

end Sys2Proof.Tests
end

section
/-! SUPPORT. O26: every kind of step keeps the instance parameter `LEN_BITS` (00_scope.md R6, R7). -/

namespace Sys2Proof.Proofs

open Sys2Proof Sys2Proof.Machine

/-- A command keeps the parameter of the instance, whether it succeeds or faults. -/
theorem exec_lenBits {i : Instr} {s t : State} (h : exec i s = .next t) : t.lenBits = s.lenBits := by
  obtain ⟨c, -, rfl⟩ | ⟨-, rfl⟩ | ⟨b, -, -, -, -, rfl⟩ | ⟨-, -, -, rfl⟩ | ⟨-, d, rfl⟩ := exec_next h
  · exact State.faultEntry_lenBits ..
  · rw [State.respond_lenBits, State.leaveFault_lenBits]
  · rw [State.respond_lenBits, absorbByte_lenBits]
  · rw [State.respond_lenBits, State.setPhase_lenBits, closeMessage_lenBits]
  · exact State.respond_lenBits ..

/-- Settles O26: by the four kinds of step, idle, reset event, reserved word and legal command. -/
theorem instanceParameterNeverChanges : Obligations.InstanceParameterNeverChanges := by
  intro s t h
  obtain ⟨-, rfl⟩ | ⟨rest, -, rfl⟩ | ⟨cw, rest, r, -, -, rfl⟩ | ⟨cw, rest, i, -, -, he⟩ := step_next h
  · rfl
  · exact State.applyReset_lenBits _
  · exact State.faultEntry_lenBits ..
  · exact exec_lenBits (s := { s with port := rest }) he

end Sys2Proof.Proofs
end

section
/-! SUPPORT. O28: the value and the bits of `rotl32` (00_scope.md R11). -/

namespace Sys2Proof.Proofs

open Sys2Proof Sys2Proof.Machine

/-- The value of `rotl32` is the formula of R11, for every `n`. -/
theorem rotl32_toNat (x : Word) (n : Nat) :
    (rotl32 x n).toNat = ((x.toNat * 2 ^ n) % 2 ^ 32) ||| (x.toNat / 2 ^ (32 - n)) := by
  rw [rotl32, BitVec.toNat_or, BitVec.toNat_shiftLeft, BitVec.toNat_ushiftRight, Nat.shiftLeft_eq,
    Nat.shiftRight_eq_div_pow]

/-- `rotl32` is the library's rotation to the left: the two agree for every amount up to the width. -/
theorem rotl32_eq_rotateLeft {x : Word} {n : Nat} (h : n < 32) : rotl32 x n = x.rotateLeft n := by
  rw [BitVec.rotateLeft_eq_rotateLeftAux_of_lt h, BitVec.rotateLeftAux, rotl32]

/-- Bit `i` of the rotated word is bit `i - n` of the word, counted modulo 32. -/
theorem rotl32_getLsbD {x : Word} {n i : Nat} (hn : n < 32) (hi : i < 32) :
    (rotl32 x n).getLsbD i = x.getLsbD ((i + 32 - n) % 32) := by
  rw [rotl32_eq_rotateLeft hn, BitVec.getLsbD_rotateLeft_of_le hn]
  by_cases h : i < n
  · have e : (i + 32 - n) % 32 = 32 - n + i := by omega
    rw [decide_eq_true h, cond_true, e]
  · have e : (i + 32 - n) % 32 = i - n := by omega
    rw [decide_eq_false h, cond_false, decide_eq_true hi, Bool.true_and, e]

/-- Settles O28: the formula from the shifts' values, the bits from the library's rotation. -/
theorem rotationWraps : Obligations.RotationWraps :=
  fun x n _ hn => ⟨rotl32_toNat x n, fun _ hi => rotl32_getLsbD hn hi⟩

end Sys2Proof.Proofs
end

section
/-! SUPPORT. O29: the values of `be32`, `bytes_be32` and `bytes_be64`, byte by byte (00_scope.md R12). -/

namespace Sys2Proof.Proofs

open Sys2Proof Sys2Proof.Machine

/-- The value of the byte that starts at bit `k` of a word of any width. -/
theorem extractByte_toNat {n : Nat} (v : BitVec n) (k : Nat) :
    (v.extractLsb' k 8).toNat = v.toNat / 2 ^ k % 256 := by
  rw [BitVec.extractLsb'_toNat, Nat.shiftRight_eq_div_pow]

/-- Four bytes fit in a word, so `be32` is their sum without wrapping. -/
theorem be32_toNat (b0 b1 b2 b3 : Byte) :
    (be32 b0 b1 b2 b3).toNat = b0.toNat * 2 ^ 24 + b1.toNat * 2 ^ 16 + b2.toNat * 2 ^ 8 + b3.toNat := by
  have h0 := b0.isLt
  have h1 := b1.isLt
  have h2 := b2.isLt
  have h3 := b3.isLt
  rw [be32, BitVec.toNat_ofNat, Nat.mod_eq_of_lt (by omega)]

/-- Unpacking a packed word gives its four bytes back. -/
theorem bytesBe32_be32 (b0 b1 b2 b3 : Byte) : bytesBe32 (be32 b0 b1 b2 b3) = [b0, b1, b2, b3] := by
  have h0 := b0.isLt
  have h1 := b1.isLt
  have h2 := b2.isLt
  have h3 := b3.isLt
  have byte_eq (k : Nat) (b : Byte)
      (h : (b0.toNat * 2 ^ 24 + b1.toNat * 2 ^ 16 + b2.toNat * 2 ^ 8 + b3.toNat) / 2 ^ k % 256 = b.toNat) :
      (be32 b0 b1 b2 b3).extractLsb' k 8 = b :=
    BitVec.eq_of_toNat_eq (by rw [extractByte_toNat, be32_toNat, h])
  rw [bytesBe32, byte_eq 24 b0 (by omega), byte_eq 16 b1 (by omega), byte_eq 8 b2 (by omega), byte_eq 0 b3 (by omega)]

@[simp] theorem bytesBe32_length (w : Word) : (bytesBe32 w).length = 4 := rfl

@[simp] theorem bytesBe64_length (v : BitVec 64) : (bytesBe64 v).length = 8 := rfl

/-- Byte `m` of `bytes_be32` starts at bit `8 * (3 - m)`. -/
theorem bytesBe32_getD (w : Word) {m : Nat} (h : m < 4) :
    (bytesBe32 w).getD m 0 = w.extractLsb' (8 * (3 - m)) 8 := by
  interval_cases m <;> rfl

/-- Byte `m` of `bytes_be64` starts at bit `8 * (7 - m)`. -/
theorem bytesBe64_getD (v : BitVec 64) {m : Nat} (h : m < 8) :
    (bytesBe64 v).getD m 0 = v.extractLsb' (8 * (7 - m)) 8 := by
  interval_cases m <;> rfl

/-- The value of byte `m` of `bytes_be32`. -/
theorem bytesBe32_getD_toNat (w : Word) {m : Nat} (h : m < 4) :
    ((bytesBe32 w).getD m 0).toNat = w.toNat / 256 ^ (3 - m) % 256 := by
  rw [bytesBe32_getD w h, extractByte_toNat, Nat.pow_mul]

/-- The value of byte `m` of `bytes_be64`. -/
theorem bytesBe64_getD_toNat (v : BitVec 64) {m : Nat} (h : m < 8) :
    ((bytesBe64 v).getD m 0).toNat = v.toNat / 256 ^ (7 - m) % 256 := by
  rw [bytesBe64_getD v h, extractByte_toNat, Nat.pow_mul]

/-- Settles O29: assembled from the value, the inverse and the bytes of the packing functions. -/
theorem bigEndianPacking : Obligations.BigEndianPacking :=
  ⟨fun b0 b1 b2 b3 => ⟨be32_toNat b0 b1 b2 b3, bytesBe32_be32 b0 b1 b2 b3⟩,
    fun w => ⟨bytesBe32_length w, fun _ h => bytesBe32_getD_toNat w h⟩,
    fun v => ⟨bytesBe64_length v, fun _ h => bytesBe64_getD_toNat v h⟩⟩

end Sys2Proof.Proofs
end

section
/-! SUPPORT. `COMPRESS` as the functions on values: the schedule `LOADW` and the `EXPAND`s build is `Schedule(BLK)`
(41_scheduler.md R113, R114), the 80 `ROUND`s are `Rounds` (42_compressor.md R125), and so `H` becomes
`CompressBlock(H, BLK)` (43_accumulator.md R138), whatever `W` and `WR` held before. -/

namespace Sys2Proof.Proofs

open Sys2Proof Sys2Proof.Machine

/-! ### `Schedule` -/

@[simp] theorem schedulePrefix_length (P : Block) (n : Nat) : (schedulePrefix P n).length = n := by
  induction n with
  | zero => rfl
  | succ n ih => rw [schedulePrefix, List.length_append, ih, List.length_singleton]

/-- The words of the schedule built so far stay as more are appended. -/
theorem schedulePrefix_getD_of_le (P : Block) {t n m : Nat} (ht : t < n) (hm : n ≤ m) :
    (schedulePrefix P m).getD t 0 = (schedulePrefix P n).getD t 0 := by
  induction m, hm using Nat.le_induction with
  | base => rfl
  | succ m hm ih => rw [schedulePrefix, List.getD_append _ _ _ _ (by simp; omega), ih]

/-- Each word of the schedule, from the words before it. -/
theorem schedulePrefix_getD (P : Block) {t n : Nat} (ht : t < n) :
    (schedulePrefix P n).getD t 0 = scheduleNext P (schedulePrefix P t) t := by
  rw [schedulePrefix_getD_of_le P (Nat.lt_succ_self t) ht, schedulePrefix,
    List.getD_append_right _ _ _ _ (by simp), schedulePrefix_length, Nat.sub_self, List.getD_cons_zero]

/-- The first 16 words of the schedule are the words of the block. -/
theorem schedule_getD_block (P : Block) {t : Nat} (ht : t < 16) : (schedule P).getD t 0 = memRead4 P (4 * t) := by
  rw [schedule, schedulePrefix_getD P (by omega), scheduleNext, if_pos ht]

/-- The later words of the schedule satisfy the recurrence. -/
theorem schedule_getD_recurrence (P : Block) {t : Nat} (h16 : 16 ≤ t) (h80 : t < 80) :
    (schedule P).getD t 0 = rotl32 ((schedule P).getD (t - 3) 0 ^^^ (schedule P).getD (t - 8) 0 ^^^
      (schedule P).getD (t - 14) 0 ^^^ (schedule P).getD (t - 16) 0) 1 := by
  have before (k : Nat) (hk : 0 < k) : (schedulePrefix P 80).getD (t - k) 0 = (schedulePrefix P t).getD (t - k) 0 :=
    schedulePrefix_getD_of_le P (by omega) (by omega)
  rw [schedule, schedulePrefix_getD P h80, scheduleNext, if_neg (by omega), before 3 (by omega), before 8 (by omega),
    before 14 (by omega), before 16 (by omega)]

/-! ### `LOADW` and the `EXPAND`s -/

/-- `n` word loads write the first `n` words and no other. -/
theorem wordAt_foldl_loadWord (blk : Block) (w : Vector Word 80) {n : Nat} (hn : n ≤ 80) (t : Nat) :
    wordAt ((List.range n).foldl (loadWord blk) w) t = if t < n then memRead4 blk (4 * t) else wordAt w t := by
  induction n with
  | zero => rfl
  | succ n ih =>
    rw [List.range_succ, List.foldl_append, List.foldl_cons, List.foldl_nil, loadWord, wordAt_setIfInBounds,
      ih (by omega)]
    by_cases h : t = n
    · rw [if_pos (by omega), if_pos (by omega), h]
    · rw [if_neg (by omega)]
      exact if_congr (by omega) rfl rfl

/-- `EXPAND(t)` writes `W[t]` and no other word. -/
theorem wordAt_expand (w : Vector Word 80) {t : Nat} (ht : t < 80) (u : Nat) :
    wordAt (expand w t) u = if u = t then rotl32 (wordAt w (t - 3) ^^^ wordAt w (t - 8) ^^^ wordAt w (t - 14) ^^^
      wordAt w (t - 16)) 1 else wordAt w u := by
  rw [expand, wordAt_setIfInBounds]
  exact if_congr (and_iff_left ht) rfl rfl

/-- From the block's words in `W[0..15]` on, `n` `EXPAND`s build the schedule up to `W[15 + n]`. -/
theorem wordAt_foldl_expand (P : Block) {w : Vector Word 80} (hw : ∀ t, t < 16 → wordAt w t = (schedule P).getD t 0)
    {n : Nat} (hn : n ≤ 64) {t : Nat} (ht : t < 16 + n) :
    wordAt ((List.range' 16 n).foldl expand w) t = (schedule P).getD t 0 := by
  induction n generalizing t with
  | zero => exact hw t ht
  | succ n ih =>
    have before {u : Nat} (hu : u < 16 + n) := ih (by omega) hu
    rw [List.range'_1_concat, List.foldl_append, List.foldl_cons, List.foldl_nil, wordAt_expand _ (by omega)]
    by_cases h : t = 16 + n
    · subst h
      rw [if_pos rfl, schedule_getD_recurrence P (by omega) (by omega), before (by omega), before (by omega),
        before (by omega), before (by omega)]
    · rw [if_neg h, before (by omega)]

/-- `W[t]` after `LOADW` and the 64 `EXPAND`s is word `t` of `Schedule(BLK)`. -/
theorem wordAt_expandAll_loadW (s : State) {t : Nat} (ht : t < 80) :
    wordAt (expandAll (loadW s)).w t = (schedule s.blk).getD t 0 := by
  rw [expandAll_w, loadW_w]
  refine wordAt_foldl_expand s.blk (fun u hu => ?_) (le_refl 64) ht
  rw [wordAt_foldl_loadWord _ _ (by omega), if_pos hu, schedule_getD_block _ hu]

/-- A word of `W` as a list. -/
theorem toList_getD (w : Vector Word 80) (t : Nat) : w.toList.getD t 0 = wordAt w t := by
  rw [wordAt, List.getD_eq_getElem?_getD, Vector.getElem?_toList]

/-- `W` after `COMPRESS` is `Schedule(BLK)`. -/
theorem compress_w_toList (s : State) : (compress s).w.toList = schedule s.blk := by
  have hlen : (compress s).w.toList.length = (schedule s.blk).length := by
    rw [Vector.length_toList, schedule, schedulePrefix_length]
  refine List.ext_getElem hlen fun t h1 h2 => ?_
  rw [← List.getD_eq_getElem _ 0 h1, ← List.getD_eq_getElem _ 0 h2, toList_getD, compress_w]
  exact wordAt_expandAll_loadW s (by simpa using h1)

/-! ### The `ROUND`s and `COMPRESS` -/

/-- `ROUND(t)`, line by line, is the function `Round`. -/
theorem roundOp_eq (w : Vector Word 80) (r : Words5) (t : Nat) : roundOp w r t = roundFn t r (wordAt w t) := rfl

/-- `n` `ROUND`s are the first `n` rounds of `Rounds`. -/
theorem foldl_roundOp (w : Vector Word 80) (S : Words5) (n : Nat) :
    (List.range n).foldl (roundOp w) S = roundsPrefix S w.toList n := by
  induction n with
  | zero => rfl
  | succ n ih =>
    rw [List.range_succ, List.foldl_append, ih, List.foldl_cons, List.foldl_nil, roundOp_eq, roundsPrefix, toList_getD]

/-- The working registers after `COMPRESS` are `Rounds(H, Schedule(BLK))`. -/
theorem compress_wr_eq_rounds (s : State) : (compress s).wr = rounds s.h (schedule s.blk) := by
  rw [compress_wr, foldl_roundOp, compress_w_toList, rounds]

/-- `COMPRESS` computes `CompressBlock(H, BLK)`. -/
theorem compress_h_eq_compressBlock (s : State) : (compress s).h = compressBlock s.h s.blk := by
  rw [compress_h, compress_wr_eq_rounds, compressBlock_eq]

end Sys2Proof.Proofs
end

section
/-! SUPPORT. O27: two states that a host cannot tell apart (10_state.md R36) step to two such states. Every
micro-operation keeps `Agree`: a write to `BLK` at `FILL` brings one more byte into the part that must agree, and
`COMPRESS` reads the whole block only once all of it agrees. -/

namespace Sys2Proof.Proofs

open Sys2Proof Sys2Proof.Machine

/-! ### Buffers that agree up to an offset -/

/-- Two buffers hold the same bytes below offset `n`: what `Agree` asks at `n = FILL`. -/
def AgreeBelow (n : Nat) (a b : Block) : Prop := ∀ p, p < n → memRead1 a p = memRead1 b p

theorem agreeBelow_zero (a b : Block) : AgreeBelow 0 a b := fun p hp => absurd hp p.not_lt_zero

theorem AgreeBelow.mono {m n : Nat} {a b : Block} (h : AgreeBelow n a b) (hm : m ≤ n) : AgreeBelow m a b :=
  fun p hp => h p (by omega)

/-- The same byte written at the first offset that need not agree. -/
theorem AgreeBelow.memWrite1 {n : Nat} {a b : Block} (h : AgreeBelow n a b) (v : Byte) :
    AgreeBelow (n + 1) (memWrite1 a n v) (memWrite1 b n v) := by
  intro p hp
  rw [memRead1_memWrite1, memRead1_memWrite1]
  by_cases hw : p = n ∧ n < 64
  · rw [if_pos hw, if_pos hw]
  · rw [if_neg hw, if_neg hw]
    by_cases hlt : p < n
    · exact h p hlt
    · rw [memRead1_beyond a p (by omega), memRead1_beyond b p (by omega)]

theorem AgreeBelow.zeroFill {p : Nat} {a b : Block} (h : AgreeBelow p a b) (n : Nat) :
    AgreeBelow (p + n) (zeroFill a p n) (zeroFill b p n) := by
  induction n generalizing a b p with
  | zero => exact h
  | succ n ih => exact (ih (h.memWrite1 0x00)).mono (by omega)

theorem AgreeBelow.memWriteBytes {p : Nat} {a b : Block} (h : AgreeBelow p a b) (bs : List Byte) :
    AgreeBelow (p + bs.length) (memWriteBytes a p bs) (memWriteBytes b p bs) := by
  induction bs generalizing a b p with
  | nil => exact h
  | cons v bs ih => exact (ih (h.memWrite1 v)).mono (by rw [List.length_cons]; omega)

/-- The length field completes a block. -/
theorem AgreeBelow.memWrite8 {a b : Block} (h : AgreeBelow 56 a b) (v : BitVec 64) :
    AgreeBelow 64 (memWrite8 a 56 v) (memWrite8 b 56 v) := h.memWriteBytes (bytesBe64 v)

/-! ### Micro-operations -/

/-- A micro-operation writes the data registers, the block buffer and the two counters at most. -/
def WritesDataOnly (s t : State) : Prop :=
  t = { s with h := t.h, wr := t.wr, w := t.w, blk := t.blk, fill := t.fill, len := t.len }

theorem append_writesDataOnly (s : State) (b : Byte) : WritesDataOnly s (append s b) := by cases s; rfl
theorem padMark_writesDataOnly (s : State) : WritesDataOnly s (padMark s) := by cases s; rfl
theorem padZero_writesDataOnly (s : State) (n : Nat) : WritesDataOnly s (padZero s n) := by cases s; rfl
theorem padLen_writesDataOnly (s : State) : WritesDataOnly s (padLen s) := by cases s; rfl
theorem compress_writesDataOnly (s : State) : WritesDataOnly s (compress s) := by cases s; rfl

/-- Where only data is written, the data has to be compared and nothing else. -/
theorem agree_of_writesDataOnly {s s' t t' : State} (h : Agree s s') (hs : WritesDataOnly s t)
    (hs' : WritesDataOnly s' t') (hfill : t.fill = t'.fill) (hlen : t.len = t'.len)
    (hh : s.phase = .absorb ∨ s.phase = .done → t.h = t'.h) (hblk : AgreeBelow t.fill t.blk t'.blk) : Agree t t' := by
  rw [hs, hs']
  exact { h with fill_eq := hfill, len_eq := hlen, h_eq := hh, blk_eq := hblk }

theorem append_agree {s s' : State} (h : Agree s s') (b : Byte) : Agree (append s b) (append s' b) := by
  refine agree_of_writesDataOnly h (append_writesDataOnly s b) (append_writesDataOnly s' b)
    (by simp [h.fill_eq]) (by simp [h.len_eq]) (by simpa using h.h_eq) ?_
  rw [append_fill, append_blk, append_blk, ← h.fill_eq]
  exact AgreeBelow.memWrite1 h.blk_eq b

theorem padMark_agree {s s' : State} (h : Agree s s') : Agree (padMark s) (padMark s') := by
  refine agree_of_writesDataOnly h (padMark_writesDataOnly s) (padMark_writesDataOnly s')
    (by simp [h.fill_eq]) (by simp [h.len_eq]) (by simpa using h.h_eq) ?_
  rw [padMark_fill, padMark_blk, padMark_blk, ← h.fill_eq]
  exact AgreeBelow.memWrite1 h.blk_eq 0x80

theorem padZero_agree {s s' : State} (h : Agree s s') (n : Nat) : Agree (padZero s n) (padZero s' n) := by
  refine agree_of_writesDataOnly h (padZero_writesDataOnly s n) (padZero_writesDataOnly s' n)
    (by simp [h.fill_eq]) (by simp [h.len_eq]) (by simpa using h.h_eq) ?_
  rw [padZero_fill, padZero_blk, padZero_blk, ← h.fill_eq]
  exact AgreeBelow.zeroFill h.blk_eq _

theorem padLen_agree {s s' : State} (h : Agree s s') (hf : 56 ≤ s.fill) : Agree (padLen s) (padLen s') := by
  refine agree_of_writesDataOnly h (padLen_writesDataOnly s) (padLen_writesDataOnly s')
    (by simp) (by simp [h.len_eq]) (by simpa using h.h_eq) ?_
  rw [padLen_fill, padLen_blk, padLen_blk, ← h.len_eq]
  exact (AgreeBelow.mono h.blk_eq hf).memWrite8 _

/-- `COMPRESS` on a full block: `H` becomes a function of what agrees, and no byte of the block is defined after it. -/
theorem compress_agree {s s' : State} (h : Agree s s') (hp : s.phase = .absorb) (hf : 64 ≤ s.fill) :
    Agree (compress s) (compress s') := by
  refine agree_of_writesDataOnly h (compress_writesDataOnly s) (compress_writesDataOnly s')
    (by simp) (by simp [h.len_eq]) (fun _ => ?_) ?_
  · have hblk : s.blk = s'.blk := block_ext (AgreeBelow.mono h.blk_eq hf)
    rw [compress_h_eq_compressBlock, compress_h_eq_compressBlock, h.h_eq (.inl hp), hblk]
  · rw [compress_fill]
    exact agreeBelow_zero _ _

/-! ### What `PUSH` and `FINAL` run -/

theorem absorbByte_agree {s s' : State} (h : Agree s s') (hp : s.phase = .absorb) (b : Byte) :
    Agree (absorbByte s b) (absorbByte s' b) := by
  by_cases hf : s.fill = 63
  · rw [absorbByte_full b hf, absorbByte_full b (h.fill_eq ▸ hf)]
    exact compress_agree (append_agree h b) (by rw [append_phase, hp]) (by rw [append_fill, hf])
  · rw [absorbByte_open b hf, absorbByte_open b (h.fill_eq ▸ hf)]
    exact append_agree h b

/-- The last block: zeros up to the length field, the length, `COMPRESS`. -/
theorem compress_padLen_agree {s s' : State} (h : Agree s s') (hp : s.phase = .absorb) :
    Agree (compress (padLen (padZero s 56))) (compress (padLen (padZero s' 56))) := by
  have padded := padLen_agree (padZero_agree h 56) (by rw [padZero_fill]; omega)
  exact compress_agree padded (by rw [padLen_phase, padZero_phase, hp]) (by rw [padLen_fill])

theorem closeMessage_agree {s s' : State} (h : Agree s s') (hp : s.phase = .absorb) :
    Agree (closeMessage s) (closeMessage s') := by
  have marked := padMark_agree h
  by_cases hf : s.fill ≤ 55
  · rw [closeMessage_one hf, closeMessage_one (h.fill_eq ▸ hf)]
    exact compress_padLen_agree marked (by rw [padMark_phase, hp])
  · rw [closeMessage_two (by omega), closeMessage_two (by rw [← h.fill_eq]; omega)]
    have early : Agree (compress (padZero (padMark s) 64)) (compress (padZero (padMark s') 64)) :=
      compress_agree (padZero_agree marked 64) (by rw [padZero_phase, padMark_phase, hp]) (by rw [padZero_fill]; omega)
    exact compress_padLen_agree early (by rw [compress_phase, padZero_phase, padMark_phase, hp])

/-! ### Response, phase, fault, reset -/

theorem respond_agree {s s' : State} (h : Agree s s') (d : Word) : Agree (s.respond d) (s'.respond d) :=
  { h with response_eq := rfl }

/-- `PHASE <- DONE` at the end of `FINAL`, where `H` agrees already. -/
theorem setPhase_done_agree {s s' : State} (h : Agree s s') (hp : s.phase = .absorb) :
    Agree (s.setPhase .done) (s'.setPhase .done) :=
  { h with phase_eq := rfl, h_eq := fun _ => h.h_eq (.inl hp) }

theorem faultEntry_agree {s s' : State} (h : Agree s s') (c : FaultCode) (cw : CmdWord) :
    Agree (s.faultEntry c cw) (s'.faultEntry c cw) :=
  { h with
    phase_eq := rfl
    err_eq := by rw [State.faultEntry_err, State.faultEntry_err, h.phase_eq, h.err_eq]
    badcmd_eq := by rw [State.faultEntry_badcmd, State.faultEntry_badcmd, h.phase_eq, h.badcmd_eq]
    response_eq := rfl
    h_eq := by rw [State.faultEntry_phase]; exact nofun }

/-- After a reset none of the data is defined: `FILL` is 0 and `PHASE` is `IDLE`. -/
theorem applyReset_agree {s s' : State} (h : Agree s s') : Agree s.applyReset s'.applyReset where
  fill_eq := rfl
  len_eq := rfl
  phase_eq := rfl
  err_eq := rfl
  badcmd_eq := rfl
  lenBits_eq := h.lenBits_eq
  port_eq := h.port_eq
  response_eq := rfl
  h_eq := by rw [State.applyReset_phase]; exact nofun
  blk_eq := agreeBelow_zero _ _

/-- Taking an event off both ports. -/
theorem port_agree {s s' : State} (h : Agree s s') (rest : List HostEvent) :
    Agree { s with port := rest } { s' with port := rest } := { h with port_eq := rfl }

/-- `STATUS` is a view of fields that agree. -/
theorem status_eq_of_agree {s s' : State} (h : Agree s s') : s.status = s'.status := by
  rw [State.status, State.status, h.badcmd_eq, h.fill_eq, h.err_eq, h.phase_eq]

theorem lenMax_eq_of_agree {s s' : State} (h : Agree s s') : s.lenMax = s'.lenMax := by
  rw [State.lenMax, State.lenMax, h.lenBits_eq]

/-! ### Commands and steps -/

/-- Both outcomes are next states, and these agree. -/
def NextAgree (o o' : Result) : Prop := ∃ t t', o = .next t ∧ o' = .next t' ∧ Agree t t'

theorem exec_init_agree {s s' : State} (h : Agree s s') : NextAgree (exec .init s) (exec .init s') :=
  ⟨_, _, rfl, rfl,
    { fill_eq := rfl
      len_eq := rfl
      phase_eq := rfl
      err_eq := rfl
      badcmd_eq := rfl
      lenBits_eq := h.lenBits_eq
      port_eq := h.port_eq
      response_eq := rfl
      h_eq := fun _ => rfl
      blk_eq := agreeBelow_zero _ _ }⟩

theorem exec_push_agree {s s' : State} (h : Agree s s') (hf : s.fill ≤ 63) (b : Byte) :
    NextAgree (exec (.push b) s) (exec (.push b) s') := by
  by_cases hp : s.phase = .absorb
  · have hp' : s'.phase = .absorb := h.phase_eq ▸ hp
    have hmax : s.len = s.lenMax ↔ s'.len = s'.lenMax := by rw [h.len_eq, lenMax_eq_of_agree h]
    by_cases hl : s.len = s.lenMax
    · exact ⟨_, _, exec_push_overflows hp hl, exec_push_overflows hp' (hmax.mp hl), faultEntry_agree h ..⟩
    · exact ⟨_, _, exec_push_absorbs hp hl hf, exec_push_absorbs hp' (hmax.not.mp hl) (h.fill_eq ▸ hf),
        respond_agree (absorbByte_agree h hp b) 0⟩
  · exact ⟨_, _, exec_push_protocol hp, exec_push_protocol (h.phase_eq ▸ hp), faultEntry_agree h ..⟩

theorem exec_final_agree {s s' : State} (h : Agree s s') (hf : s.fill ≤ 63) :
    NextAgree (exec .final s) (exec .final s') := by
  by_cases hp : s.phase = .absorb
  · have closed := setPhase_done_agree (closeMessage_agree h hp) (by rw [closeMessage_phase, hp])
    exact ⟨_, _, exec_final_closes hp hf, exec_final_closes (h.phase_eq ▸ hp) (h.fill_eq ▸ hf), respond_agree closed 0⟩
  · exact ⟨_, _, exec_final_protocol hp, exec_final_protocol (h.phase_eq ▸ hp), faultEntry_agree h ..⟩

/-- A read-out answers from `H` in phase `DONE` only, where `H` agrees. -/
theorem readView_agree {s s' : State} (h : Agree s s') (n : Nat) (arg : Byte) (cw : CmdWord)
    (view : Words5 → Fin n → Word) : NextAgree (readView n arg cw view s) (readView n arg cw view s') := by
  rw [readView, readView]
  cases indexOperand n arg with
  | none => exact ⟨_, _, raise_eq .., raise_eq .., faultEntry_agree h ..⟩
  | some i =>
    by_cases hp : s.phase = .done
    · refine ⟨_, _, inPhase_of_eq hp, inPhase_of_eq (h.phase_eq ▸ hp), ?_⟩
      rw [h.h_eq (.inr hp)]
      exact respond_agree h _
    · exact ⟨_, _, inPhase_of_ne hp, inPhase_of_ne (h.phase_eq ▸ hp), faultEntry_agree h ..⟩

theorem exec_stat_agree {s s' : State} (h : Agree s s') : NextAgree (exec .stat s) (exec .stat s') := by
  refine ⟨s.respond s.status, s'.respond s'.status, rfl, rfl, ?_⟩
  rw [status_eq_of_agree h]
  exact respond_agree h _

/-- Every command from two agreeing states answers in both, and the next states agree. -/
theorem exec_agree {s s' : State} (h : Agree s s') (hf : s.fill ≤ 63) (i : Instr) :
    NextAgree (exec i s) (exec i s') := by
  cases i with
  | init => exact exec_init_agree h
  | push b => exact exec_push_agree h hf b
  | final => exact exec_final_agree h hf
  | rdw n => rw [exec_rdw, exec_rdw]; exact readView_agree h ..
  | rdb j => rw [exec_rdb, exec_rdb]; exact readView_agree h ..
  | rdhex k => rw [exec_rdhex, exec_rdhex]; exact readView_agree h ..
  | stat => exact exec_stat_agree h

/-- Settles O27: by the events on the port, which are the same in both states. -/
theorem noResultDependsOnUnspecifiedState : Obligations.NoResultDependsOnUnspecifiedState := by
  intro s s' h hf
  cases hp : s.port with
  | nil => exact ⟨s, s', by rw [step, nextEvent, hp], by rw [step, nextEvent, ← h.port_eq, hp], h⟩
  | cons e rest =>
    have hp' : s'.port = e :: rest := h.port_eq ▸ hp
    have hrest := port_agree h rest
    cases e with
    | reset =>
      exact ⟨_, _, by rw [step, nextEvent, hp]; rfl, by rw [step, nextEvent, hp']; rfl, applyReset_agree hrest⟩
    | command cw =>
      cases hd : decode cw with
      | reserved r => exact ⟨_, _, step_reserved hp hd, step_reserved hp' hd, faultEntry_agree hrest ..⟩
      | legal i =>
        rw [step_legal hp hd, step_legal hp' hd]
        exact exec_agree hrest hf i

end Sys2Proof.Proofs
end

section
/-! SUPPORT. O20, O21: the control invariant of every command boundary (10_state.md R25, R27, R28, R29) holds after reset
and is kept by every kind of step. -/

namespace Sys2Proof.Proofs

open Sys2Proof Sys2Proof.Machine

/-- The control state that a reset leaves, at power-on or applied (R35, R190), meets the invariant. -/
theorem controlInv_of_cleared {s : State} (hfill : s.fill = 0) (hlen : s.len = 0) (hphase : s.phase = .idle)
    (herr : s.err = none) (hbad : s.badcmd = 0) : ControlInv s where
  fill_le := by rw [hfill]; exact Nat.zero_le _
  len_le := by rw [hlen]; exact Nat.zero_le _
  absorb_fill := fun _ => by rw [hfill, hlen]
  idle_empty := fun _ => ⟨hfill, hlen⟩
  done_empty := fun _ => hfill
  err_iff_fault := by rw [herr, hphase]; decide
  badcmd_zero := fun _ => hbad

/-- A state in phase `ABSORB` meets the invariant as soon as its counters fit and nothing is recorded. -/
theorem controlInv_of_absorb {s : State} (hphase : s.phase = .absorb) (hlen : s.len ≤ s.lenMax)
    (hfill : s.fill = s.len % 64) (herr : s.err = none) (hbad : s.badcmd = 0) : ControlInv s where
  fill_le := by omega
  len_le := hlen
  absorb_fill := fun _ => hfill
  idle_empty := by rw [hphase]; exact nofun
  done_empty := by rw [hphase]; exact nofun
  err_iff_fault := by rw [herr, hphase]; decide
  badcmd_zero := fun _ => hbad

theorem controlInv_port {s : State} (hi : ControlInv s) (rest : List HostEvent) :
    ControlInv { s with port := rest } := { hi with }

theorem controlInv_respond {s : State} (hi : ControlInv s) (d : Word) : ControlInv (s.respond d) := { hi with }

theorem controlInv_applyReset (s : State) : ControlInv s.applyReset := controlInv_of_cleared rfl rfl rfl rfl rfl

/-- Phase `ABSORB` is not `FAULT`, so nothing is recorded. -/
theorem err_eq_none_of_absorb {s : State} (hi : ControlInv s) (hp : s.phase = .absorb) : s.err = none :=
  hi.err_iff_fault.mpr (by rw [hp]; decide)

/-- Fault entry records a fault, or finds one recorded, and leaves the counters alone. -/
theorem controlInv_faultEntry {s : State} (hi : ControlInv s) (c : FaultCode) (cw : CmdWord) :
    ControlInv (s.faultEntry c cw) := by
  have recorded : (s.faultEntry c cw).err ≠ none := by
    rw [State.faultEntry_err]
    by_cases hp : s.phase = .fault
    · rw [if_pos hp]
      exact fun he => hi.err_iff_fault.mp he hp
    · rw [if_neg hp]
      exact nofun
  exact
    { fill_le := hi.fill_le
      len_le := hi.len_le
      absorb_fill := by rw [State.faultEntry_phase]; exact nofun
      idle_empty := by rw [State.faultEntry_phase]; exact nofun
      done_empty := by rw [State.faultEntry_phase]; exact nofun
      err_iff_fault := ⟨fun he => absurd he recorded, fun hp => absurd (State.faultEntry_phase ..) hp⟩
      badcmd_zero := fun he => absurd he recorded }

/-- A byte below the limit: `LEN` still fits, and `FILL` follows it modulo 64. -/
theorem controlInv_absorbByte {s : State} (hi : ControlInv s) (hp : s.phase = .absorb) (hl : s.len ≠ s.lenMax)
    (b : Byte) : ControlInv (absorbByte s b) := by
  have hlen := hi.len_le
  have hfill := hi.absorb_fill hp
  have herr := err_eq_none_of_absorb hi hp
  refine controlInv_of_absorb ?_ ?_ ?_ ?_ ?_
  · rw [absorbByte_phase, hp]
  · rw [absorbByte_len, State.lenMax, absorbByte_lenBits, ← State.lenMax]
    omega
  · rw [absorbByte_fill, absorbByte_len]
    split <;> omega
  · rw [absorbByte_err, herr]
  · rw [absorbByte_badcmd, hi.badcmd_zero herr]

/-- The closed transaction: the buffer is empty and `LEN` is as it was. -/
theorem controlInv_closeMessage_done {s : State} (hi : ControlInv s) (hp : s.phase = .absorb) :
    ControlInv ((closeMessage s).setPhase .done) := by
  have hfill : ((closeMessage s).setPhase .done).fill = 0 := by rw [State.setPhase_fill, closeMessage_fill]
  have herr : ((closeMessage s).setPhase .done).err = none := by
    rw [State.setPhase_err, closeMessage_err, err_eq_none_of_absorb hi hp]
  have hbad : ((closeMessage s).setPhase .done).badcmd = 0 := by
    rw [State.setPhase_badcmd, closeMessage_badcmd, hi.badcmd_zero (err_eq_none_of_absorb hi hp)]
  exact
    { fill_le := by rw [hfill]; exact Nat.zero_le _
      len_le := by
        rw [State.setPhase_len, closeMessage_len, State.lenMax, State.setPhase_lenBits, closeMessage_lenBits]
        exact hi.len_le
      absorb_fill := by rw [State.setPhase_phase]; exact nofun
      idle_empty := by rw [State.setPhase_phase]; exact nofun
      done_empty := fun _ => hfill
      err_iff_fault := by rw [herr, State.setPhase_phase]; decide
      badcmd_zero := fun _ => hbad }

/-- Every command keeps the invariant, by the cases of `exec_next`. -/
theorem controlInv_exec {i : Instr} {s t : State} (hi : ControlInv s) (h : exec i s = .next t) : ControlInv t := by
  obtain ⟨c, -, rfl⟩ | ⟨-, rfl⟩ | ⟨b, -, hp, hl, -, rfl⟩ | ⟨-, hp, -, rfl⟩ | ⟨-, d, rfl⟩ := exec_next h
  · exact controlInv_faultEntry hi ..
  · exact controlInv_respond (controlInv_of_absorb rfl (Nat.zero_le _) rfl rfl rfl) 0
  · exact controlInv_respond (controlInv_absorbByte hi hp hl b) 0
  · exact controlInv_respond (controlInv_closeMessage_done hi hp) 0
  · exact controlInv_respond hi d

/-- Settles O20: by the four kinds of step, idle, reset event, reserved word and legal command. -/
theorem controlInvariantKept : Obligations.ControlInvariantKept := by
  intro s t hi h
  obtain ⟨-, rfl⟩ | ⟨rest, -, rfl⟩ | ⟨cw, rest, r, -, -, rfl⟩ | ⟨cw, rest, i, -, -, he⟩ := step_next h
  · exact hi
  · exact controlInv_applyReset _
  · exact controlInv_faultEntry (controlInv_port hi rest) ..
  · exact controlInv_exec (controlInv_port hi rest) he

/-- Settles O21: the reset state is cleared and records no fault. -/
theorem controlInvariantAtReset : Obligations.ControlInvariantAtReset :=
  fun _ => ⟨controlInv_of_cleared rfl rfl rfl rfl rfl, trivial⟩

end Sys2Proof.Proofs
end

section
/-! SUPPORT. O25: `H` is written by `INIT` and by `ACCUM` alone (10_state.md R21, 43_accumulator.md R136, R139). -/

namespace Sys2Proof.Proofs

open Sys2Proof Sys2Proof.Machine

/-- The mark and the zeros finish a block early (40_framer.md R100, `r >= 56`; it holds for every `FILL` in range). -/
theorem padZero_padMark_blk {s : State} (hf : s.fill ≤ 63) :
    (padZero (padMark s) 64).blk = earlyBlock s.blk s.fill := by
  refine block_ext fun p hp => ?_
  rw [padZero_blk, padMark_blk, padMark_fill, memRead1_zeroFill _ _ _ _ (by omega), memRead1_memWrite1, earlyBlock,
    memRead1_ofFn, dif_pos hp]
  dsimp only
  obtain hlt | rfl | hgt := Nat.lt_trichotomy p s.fill
  · rw [if_neg (by omega), if_neg (by omega), if_pos hlt]
  · rw [if_neg (by omega), if_pos ⟨rfl, hp⟩, if_neg (by omega), if_pos rfl]
  · rw [if_pos (by omega), if_neg (by omega), if_neg (by omega)]

/-- `PUSH` writes `H` only when its byte completes the block, and then accumulates. -/
theorem absorbByte_h (s : State) (b : Byte) :
    (absorbByte s b).h = if s.fill = 63 then s.h.add (absorbByte s b).wr else s.h := by
  by_cases hf : s.fill = 63
  · rw [if_pos hf, absorbByte_full b hf, compress_h, append_h]
  · rw [if_neg hf, absorbByte_open b hf, append_h]

/-- `FINAL` accumulates onto `H`, after it has compressed the block it finishes early if it needs two. -/
theorem closeMessage_h {s : State} (hf : s.fill ≤ 63) : (closeMessage s).h =
    (if s.fill ≤ 55 then s.h else compressBlock s.h (earlyBlock s.blk s.fill)).add (closeMessage s).wr := by
  by_cases h55 : s.fill ≤ 55
  · rw [if_pos h55, closeMessage_one h55, compress_h, padLen_h, padZero_h, padMark_h]
  · rw [if_neg h55, closeMessage_two (by omega), compress_h, padLen_h, padZero_h, compress_h_eq_compressBlock,
      padZero_h, padMark_h, padZero_padMark_blk hf]

/-- A command changes `H` only as `INIT`, as the `PUSH` that completes a block, or as `FINAL`. -/
theorem exec_h_changes {i : Instr} {s t : State} (h : exec i s = .next t) (hne : t.h ≠ s.h) :
    (i = .init ∧ t.h = iv) ∨
    ((∃ b, i = .push b) ∧ s.phase = .absorb ∧ s.fill = 63 ∧ t.h = s.h.add t.wr) ∨
    (i = .final ∧ s.phase = .absorb ∧
      t.h = (if s.fill ≤ 55 then s.h else compressBlock s.h (earlyBlock s.blk s.fill)).add t.wr) := by
  obtain ⟨c, -, rfl⟩ | ⟨hi, rfl⟩ | ⟨b, hi, hp, -, -, rfl⟩ | ⟨hi, hp, hf, rfl⟩ | ⟨-, d, rfl⟩ := exec_next h
  · exact absurd (State.faultEntry_h ..) hne
  · exact .inl ⟨hi, rfl⟩
  · rw [State.respond_h, absorbByte_h] at hne
    have hf : s.fill = 63 := by
      by_contra hf
      exact hne (if_neg hf)
    refine .inr (.inl ⟨⟨b, hi⟩, hp, hf, ?_⟩)
    rw [State.respond_h, State.respond_wr, absorbByte_h, if_pos hf]
  · refine .inr (.inr ⟨hi, hp, ?_⟩)
    rw [State.respond_h, State.respond_wr, State.setPhase_h, State.setPhase_wr]
    exact closeMessage_h hf
  · exact absurd (State.respond_h ..) hne

/-- Settles O25: a reserved word changes nothing of `H`, and a legal one only in the cases of `exec_h_changes`. -/
theorem digestWrittenOnlyByInitAndAccum : Obligations.DigestWrittenOnlyByInitAndAccum := by
  intro s t cw rest hport h hne
  cases hd : decode cw with
  | reserved r =>
    rw [step_reserved hport hd] at h
    obtain rfl := Host.Outcome.next.inj h
    exact absurd (State.faultEntry_h ..) hne
  | legal i =>
    rw [step_legal hport hd] at h
    simpa only [Decoded.legal.injEq] using exec_h_changes (s := { s with port := rest }) h hne

end Sys2Proof.Proofs
end

section
/-! SUPPORT. O30: the reads of `BLK` and what they return after a write (20_memory.md R53, R54). The one-byte write is
`memRead1_memWrite1` as it stands. -/

namespace Sys2Proof.Proofs

open Sys2Proof Sys2Proof.Machine

/-- The one-byte read of an existing offset is the element there. -/
theorem memRead1_eq_getElem (blk : Block) {p : Nat} (h : p < 64) : memRead1 blk p = blk[p] := by
  rw [memRead1, Vector.getElem?_eq_getElem h, Option.getD_some]

/-- The value of the word read: four bytes, most significant first. -/
theorem memRead4_toNat (blk : Block) (p : Nat) : (memRead4 blk p).toNat = (memRead1 blk p).toNat * 2 ^ 24 +
    (memRead1 blk (p + 1)).toNat * 2 ^ 16 + (memRead1 blk (p + 2)).toNat * 2 ^ 8 + (memRead1 blk (p + 3)).toNat :=
  be32_toNat ..

/-- Read after an 8-byte write. -/
theorem memRead1_memWrite8 (blk : Block) {p : Nat} (q : Nat) (v : BitVec 64) (h : p + 8 ≤ 64) :
    memRead1 (memWrite8 blk p v) q =
      if p ≤ q ∧ q < p + 8 then BitVec.ofNat 8 (v.toNat / 256 ^ (p + 7 - q)) else memRead1 blk q := by
  rw [memWrite8, memRead1_memWriteBytes blk p q (bytesBe64 v) h, bytesBe64_length]
  by_cases hq : p ≤ q ∧ q < p + 8
  · have hexp : 7 - (q - p) = p + 7 - q := by omega
    rw [if_pos hq, if_pos hq]
    apply BitVec.eq_of_toNat_eq
    rw [bytesBe64_getD_toNat v (by omega), BitVec.toNat_ofNat, hexp]
  · rw [if_neg hq, if_neg hq]

/-- The word read `k` bytes into an 8-byte write is the slice of the value that starts `4 - k` bytes from its end: byte
`k + m` of the value is byte `m` of that slice. -/
theorem memRead4_memWrite8_toNat (blk : Block) {p k : Nat} (v : BitVec 64) (h : p + 8 ≤ 64) (hk : k ≤ 4) :
    (memRead4 (memWrite8 blk p v) (p + k)).toNat = v.toNat / 256 ^ (4 - k) % 2 ^ 32 := by
  have byte_eq (m : Nat) (hm : m ≤ 3) : (memRead1 (memWrite8 blk p v) (p + k + m)).toNat =
      v.toNat / 256 ^ (4 - k) / 256 ^ (3 - m) % 256 := by
    have hexp : p + 7 - (p + k + m) = 4 - k + (3 - m) := by omega
    rw [memRead1_memWrite8 blk _ v h, if_pos (by omega), BitVec.toNat_ofNat, hexp, Nat.pow_add, Nat.div_div_eq_div_mul]
  have h0 := byte_eq 0 (by omega)
  rw [Nat.add_zero] at h0
  rw [memRead4_toNat, h0, byte_eq 1 (by omega), byte_eq 2 (by omega), byte_eq 3 (by omega)]
  omega

/-- Settles O30: assembled from the two reads and from what they return after each write. -/
theorem blockBufferAccess : Obligations.BlockBufferAccess := by
  refine ⟨fun blk p h => memRead1_eq_getElem blk h, fun blk p _ => memRead4_toNat blk p, ?_, ?_⟩
  · intro blk p b hp q
    rw [memRead1_memWrite1]
    exact if_congr (and_iff_left hp) rfl rfl
  · intro blk p v hp
    refine ⟨fun q => memRead1_memWrite8 blk q v hp, ?_, ?_⟩
    · have hpow : 256 ^ (4 - 0) = 2 ^ 32 := by decide
      have hhigh : v.toNat / 2 ^ 32 < 2 ^ 32 := by omega
      have hslice := memRead4_memWrite8_toNat blk v hp (Nat.zero_le 4)
      rwa [Nat.add_zero, hpow, Nat.mod_eq_of_lt hhigh] at hslice
    · rw [memRead4_memWrite8_toNat blk v hp (le_refl 4), Nat.sub_self, Nat.pow_zero, Nat.div_one]

end Sys2Proof.Proofs
end

section
/-! SUPPORT. O1, O2: the decoder one operation code at a time, all that it can answer, and the round trip with the
encoder (30_encoding.md R72, R74, R76, R80). -/

namespace Sys2Proof.Proofs

open Sys2Proof

/-! ### One equation per operation code -/

section DecodeFields

variable (arg : Byte)

theorem decodeFields_opZero (zero : BitVec 4) : decodeFields 0#4 zero arg = .reserved .opZero := rfl

theorem decodeFields_init :
    decodeFields 1#4 0#4 arg = if arg = 0#8 then .legal .init else .reserved .argNonzero := rfl

theorem decodeFields_push : decodeFields 2#4 0#4 arg = .legal (.push arg) := rfl

theorem decodeFields_final :
    decodeFields 3#4 0#4 arg = if arg = 0#8 then .legal .final else .reserved .argNonzero := rfl

theorem decodeFields_rdw :
    decodeFields 4#4 0#4 arg = if arg.toNat ≤ 4 then .legal (.rdw arg) else .reserved .indexRange := rfl

theorem decodeFields_rdb :
    decodeFields 5#4 0#4 arg = if arg.toNat ≤ 19 then .legal (.rdb arg) else .reserved .indexRange := rfl

theorem decodeFields_rdhex :
    decodeFields 6#4 0#4 arg = if arg.toNat ≤ 39 then .legal (.rdhex arg) else .reserved .indexRange := rfl

theorem decodeFields_stat :
    decodeFields 7#4 0#4 arg = if arg = 0#8 then .legal .stat else .reserved .argNonzero := rfl

theorem decodeFields_opHigh {op : BitVec 4} (zero : BitVec 4) (h : 8 ≤ op.toNat) :
    decodeFields op zero arg = .reserved .opHigh := by
  have h0 : op ≠ 0 := by rintro rfl; exact absurd h (by decide)
  rw [decodeFields, if_neg h0, if_pos h]

theorem decodeFields_zeroNonzero {op zero : BitVec 4} (h1 : 1 ≤ op.toNat) (h7 : op.toNat ≤ 7) (hz : zero ≠ 0#4) :
    decodeFields op zero arg = .reserved .zeroNonzero := by
  have h0 : op ≠ 0 := by rintro rfl; exact absurd h1 (by decide)
  rw [decodeFields, if_neg h0, if_neg (by omega)]
  exact if_pos hz

end DecodeFields

/-! ### Everything the decoder can answer -/

/-- The three fields are those of the command, and its operand is in the legal range. -/
def IsCommand (op zero : BitVec 4) (arg : Byte) (i : Instr) : Prop :=
  i.wf = true ∧ op = i.op ∧ zero = 0#4 ∧ arg = i.arg

/-- The five classes of R76, on the three fields. -/
def InClass (op zero : BitVec 4) (arg : Byte) : Reserved → Prop
  | .opZero => op = 0#4
  | .opHigh => 8 ≤ op.toNat
  | .zeroNonzero => 1 ≤ op.toNat ∧ op.toNat ≤ 7 ∧ zero ≠ 0#4
  | .argNonzero => (op = 1#4 ∨ op = 3#4 ∨ op = 7#4) ∧ arg ≠ 0#8
  | .indexRange => (op = 4#4 ∧ 4 < arg.toNat) ∨ (op = 5#4 ∧ 19 < arg.toNat) ∨ (op = 6#4 ∧ 39 < arg.toNat)

/-- The decoder answers a command that these fields are, or a reserved class that they are in. -/
def AnswersRightly (op zero : BitVec 4) (arg : Byte) : Prop :=
  (∃ i, decodeFields op zero arg = .legal i ∧ IsCommand op zero arg i) ∨
  (∃ r, decodeFields op zero arg = .reserved r ∧ InClass op zero arg r)

/-- A row of the table with a range: within it the command, beyond it the reserved class. -/
theorem answersRightly_of_ite {op zero : BitVec 4} {arg : Byte} {inRange : Prop} [Decidable inRange] {i : Instr}
    {r : Reserved} (heq : decodeFields op zero arg = if inRange then .legal i else .reserved r)
    (hi : inRange → IsCommand op zero arg i) (hr : ¬ inRange → InClass op zero arg r) :
    AnswersRightly op zero arg := by
  by_cases h : inRange
  · exact .inl ⟨i, heq.trans (if_pos h), hi h⟩
  · exact .inr ⟨r, heq.trans (if_neg h), hr h⟩

/-- An operation code is 0, one of 8..15, or one of the seven of the table. -/
theorem op_cases (op : BitVec 4) :
    op = 0#4 ∨ 8 ≤ op.toNat ∨
      op = 1#4 ∨ op = 2#4 ∨ op = 3#4 ∨ op = 4#4 ∨ op = 5#4 ∨ op = 6#4 ∨ op = 7#4 := by
  decide +revert

theorem decodeFields_cases (op zero : BitVec 4) (arg : Byte) : AnswersRightly op zero arg := by
  obtain rfl | h8 | h17 := op_cases op
  · exact .inr ⟨.opZero, decodeFields_opZero arg zero, rfl⟩
  · exact .inr ⟨.opHigh, decodeFields_opHigh arg zero h8, h8⟩
  by_cases hz : zero = 0#4
  case neg =>
    have ⟨h1, h7⟩ : 1 ≤ op.toNat ∧ op.toNat ≤ 7 := by
      obtain rfl | rfl | rfl | rfl | rfl | rfl | rfl := h17 <;> decide
    exact .inr ⟨.zeroNonzero, decodeFields_zeroNonzero arg h1 h7 hz, h1, h7, hz⟩
  subst hz
  obtain rfl | rfl | rfl | rfl | rfl | rfl | rfl := h17
  · exact answersRightly_of_ite (decodeFields_init arg) (fun h => ⟨rfl, rfl, rfl, h⟩) (fun h => ⟨.inl rfl, h⟩)
  · exact .inl ⟨.push arg, decodeFields_push arg, rfl, rfl, rfl, rfl⟩
  · exact answersRightly_of_ite (decodeFields_final arg) (fun h => ⟨rfl, rfl, rfl, h⟩)
      (fun h => ⟨.inr (.inl rfl), h⟩)
  · exact answersRightly_of_ite (decodeFields_rdw arg) (fun h => ⟨decide_eq_true h, rfl, rfl, rfl⟩)
      (fun h => .inl ⟨rfl, Nat.lt_of_not_le h⟩)
  · exact answersRightly_of_ite (decodeFields_rdb arg) (fun h => ⟨decide_eq_true h, rfl, rfl, rfl⟩)
      (fun h => .inr (.inl ⟨rfl, Nat.lt_of_not_le h⟩))
  · exact answersRightly_of_ite (decodeFields_rdhex arg) (fun h => ⟨decide_eq_true h, rfl, rfl, rfl⟩)
      (fun h => .inr (.inr ⟨rfl, Nat.lt_of_not_le h⟩))
  · exact answersRightly_of_ite (decodeFields_stat arg) (fun h => ⟨rfl, rfl, rfl, h⟩)
      (fun h => ⟨.inr (.inr rfl), h⟩)

/-! ### The round trip -/

/-- The fields of a well-formed command decode to it. -/
theorem decodeFields_of_wf {i : Instr} (h : i.wf = true) : decodeFields i.op 0#4 i.arg = .legal i := by
  cases i with
  | init | push | final | stat => rfl
  | rdw n => exact (decodeFields_rdw n).trans (if_pos (of_decide_eq_true h))
  | rdb n => exact (decodeFields_rdb n).trans (if_pos (of_decide_eq_true h))
  | rdhex n => exact (decodeFields_rdhex n).trans (if_pos (of_decide_eq_true h))

/-- A word is a command's word exactly when its three fields are the command's (R72, R80). -/
theorem encode_eq_iff {i : Instr} {cw : CmdWord} :
    encode i = cw ↔ opField cw = i.op ∧ zeroField cw = 0#4 ∧ argField cw = i.arg := by
  constructor
  · rintro rfl
    exact Laws.fields_of_assembled i.op i.arg
  · rintro ⟨hop, hzero, harg⟩
    have hword := Laws.word_of_fields cw
    rw [hop, hzero, harg, BitVec.toNat_zero, Nat.zero_mul, Nat.add_zero] at hword
    rw [encode, ← hword, BitVec.ofNat_toNat, BitVec.setWidth_eq]

/-- A word decodes to a command exactly when the command is well-formed and the word is its word. -/
theorem decode_eq_legal_iff {cw : CmdWord} {i : Instr} : decode cw = .legal i ↔ i.wf = true ∧ encode i = cw := by
  constructor
  · intro h
    obtain ⟨j, hj, hwf, hfields⟩ | ⟨r, hr, -⟩ := decodeFields_cases (opField cw) (zeroField cw) (argField cw)
    · obtain rfl := Decoded.legal.inj (h.symm.trans hj)
      exact ⟨hwf, encode_eq_iff.mpr hfields⟩
    · exact absurd (h.symm.trans hr) nofun
  · rintro ⟨hwf, rfl⟩
    rw [Laws.decode_encode_fields, decodeFields_of_wf hwf]

/-- Settles O1: both directions of `decode_eq_legal_iff`. -/
theorem decodeAndEncodeAgree : Obligations.DecodeAndEncodeAgree :=
  ⟨fun _ hwf => decode_eq_legal_iff.mpr ⟨hwf, rfl⟩, fun _ _ h => decode_eq_legal_iff.mp h⟩

/-- Settles O2: the decoder computes the nine words. -/
theorem patternWordsDecode : Obligations.PatternWordsDecode := by
  unfold Obligations.PatternWordsDecode
  decide

end Sys2Proof.Proofs
end

section
/-! SUPPORT. O3: each row of the opcode map as mask, match and range, and the list of the 324 legal words
(30_encoding.md R74). -/

namespace Sys2Proof.Proofs

open Sys2Proof

/-! ### Mask and match -/

/-- A mask that keeps the bits from `k` up compares the multiples of `2 ^ k` below the two numbers. -/
theorem and_highMask_eq_iff {cw m : CmdWord} {k : Nat} :
    cw &&& BitVec.allOnes 16 <<< k = m ↔ cw.toNat / 2 ^ k * 2 ^ k = m.toNat := by
  have hlt : cw.toNat / 2 ^ k * 2 ^ k < 2 ^ 16 := lt_of_le_of_lt (Nat.div_mul_le_self ..) cw.isLt
  rw [← BitVec.shiftLeft_ushiftRight, ← BitVec.toNat_inj, BitVec.toNat_shiftLeft, BitVec.toNat_ushiftRight,
    Nat.shiftLeft_eq, Nat.shiftRight_eq_div_pow, Nat.mod_eq_of_lt hlt]

/-- A number is a multiple of 256 plus a remainder below `d` exactly when it agrees with the multiple from `d` up, and
with the remainder modulo 256. -/
theorem eq_add_iff_div_mul_and_mod {x q a d : Nat} (hd : d ∣ 256) (ha : a < d) :
    x = q * 256 + a ↔ x / d * d = q * 256 ∧ x % 256 = a := by
  have hd256 := Nat.le_of_dvd (by decide) hd
  constructor
  · rintro rfl
    obtain ⟨c, hc⟩ : d ∣ q * 256 := Dvd.dvd.mul_left hd q
    refine ⟨?_, by omega⟩
    rw [hc, Nat.mul_add_div (by omega), Nat.div_eq_of_lt ha, Nat.add_zero, Nat.mul_comm]
  · rintro ⟨hdiv, hmod⟩
    have hrest : x % d = a := by rw [← Nat.mod_mod_of_dvd x hd, hmod, Nat.mod_eq_of_lt ha]
    rw [← hdiv, ← hrest, Nat.div_add_mod']

section Rows

variable {i : Instr} {op : BitVec 4} {cw mask shape : CmdWord} {k : Nat} (hk : k ≤ 8)
  (hmask : mask = BitVec.allOnes 16 <<< k) (hop : i.op = op) (hshape : shape = BitVec.ofNat 16 (op.toNat * 4096))
include hk hmask hop hshape

/-- A word is a command's word exactly when it has the shape of the command's row, whose mask leaves out the `k` bits
that the operand may use, and the command's operand. -/
theorem encode_eq_iff_shape (hi : i.arg.toNat < 2 ^ k) :
    encode i = cw ↔ cw &&& mask = shape ∧ argField cw = i.arg := by
  have hop16 := op.isLt
  have harg256 := i.arg.isLt
  have hwordNat : (encode i).toNat = op.toNat * 16 * 256 + i.arg.toNat := by
    rw [encode, hop, BitVec.toNat_ofNat]; omega
  have hshapeNat : shape.toNat = op.toNat * 16 * 256 := by
    rw [hshape, BitVec.toNat_ofNat]; omega
  have hfield : (argField cw).toNat = cw.toNat % 256 := by simp [argField]
  rw [hmask, and_highMask_eq_iff, ← BitVec.toNat_inj, ← BitVec.toNat_inj, hwordNat, hshapeNat, hfield, eq_comm]
  exact eq_add_iff_div_mul_and_mod (pow_dvd_pow 2 hk) hi

/-- A row whose mask leaves no illegal operand. -/
theorem decode_eq_legal_iff_shape (hwf : i.wf = true) (hi : i.arg.toNat < 2 ^ k) :
    decode cw = .legal i ↔ cw &&& mask = shape ∧ argField cw = i.arg := by
  rw [decode_eq_legal_iff, encode_eq_iff_shape hk hmask hop hshape hi, and_iff_right hwf]

/-- A row with a range of legal operands beside its mask. -/
theorem decode_eq_legal_iff_shape_and_range {inRange : Prop} (hwf : i.wf = true ↔ inRange)
    (hi : inRange → i.arg.toNat < 2 ^ k) :
    decode cw = .legal i ↔ cw &&& mask = shape ∧ argField cw = i.arg ∧ inRange := by
  rw [decode_eq_legal_iff, hwf, ← and_assoc, and_comm]
  exact and_congr_left fun h => encode_eq_iff_shape hk hmask hop hshape (hi h)

end Rows

/-! ### The legal words, listed -/

/-- The bytes below `n`. -/
def operands (n : Nat) : List Byte := (List.range n).map (BitVec.ofNat 8)

theorem mem_operands {n : Nat} (hn : n ≤ 256) {b : Byte} : b ∈ operands n ↔ b.toNat < n := by
  rw [operands, List.mem_map]
  constructor
  · rintro ⟨m, hm, rfl⟩
    rw [List.mem_range] at hm
    rw [BitVec.toNat_ofNat]
    omega
  · exact fun h => ⟨b.toNat, List.mem_range.mpr h, BitVec.ofNat_toNat ..⟩

theorem operands_nodup {n : Nat} (hn : n ≤ 256) : (operands n).Nodup := by
  refine List.Nodup.map_on (fun x hx y hy h => ?_) List.nodup_range
  rw [List.mem_range] at hx hy
  rw [← BitVec.toNat_inj, BitVec.toNat_ofNat, BitVec.toNat_ofNat] at h
  omega

theorem nodup_map_operands {n : Nat} (hn : n ≤ 256) {f : Byte → Instr} (hf : f.Injective) :
    ((operands n).map f).Nodup := (operands_nodup hn).map hf

/-- Every well-formed command, in the order of the table's rows (R74). -/
def legalInstrs : List Instr :=
  Instr.init :: (operands 256).map Instr.push ++ Instr.final :: (operands 5).map Instr.rdw ++
    (operands 20).map Instr.rdb ++ (operands 40).map Instr.rdhex ++ [Instr.stat]

theorem mem_legalInstrs {i : Instr} : i ∈ legalInstrs ↔ i.wf = true := by
  cases i <;> simp [legalInstrs, Instr.wf, mem_operands] <;> omega

/-- The commands of one row are distinct, and two rows have no command in common. -/
theorem legalInstrs_nodup : legalInstrs.Nodup := by
  have hpush := nodup_map_operands (le_refl 256) fun _ _ => Instr.push.inj
  have hrdw := nodup_map_operands (n := 5) (by decide) fun _ _ => Instr.rdw.inj
  have hrdb := nodup_map_operands (n := 20) (by decide) fun _ _ => Instr.rdb.inj
  have hrdhex := nodup_map_operands (n := 40) (by decide) fun _ _ => Instr.rdhex.inj
  simp [legalInstrs, List.nodup_append', List.disjoint_left, hpush, hrdw, hrdb, hrdhex]

theorem legalInstrs_length : legalInstrs.length = 1 + 256 + 1 + 5 + 20 + 40 + 1 := by
  simp [legalInstrs, operands]

/-- The legal words of R74. -/
def legalWords : List CmdWord := legalInstrs.map encode

/-- Two well-formed commands with one word are one command, the one that the word decodes to. -/
theorem encode_injOn_wf {i j : Instr} (hi : i.wf = true) (hj : j.wf = true) (h : encode i = encode j) : i = j :=
  Decoded.legal.inj ((decode_eq_legal_iff.mpr ⟨hi, rfl⟩).symm.trans (decode_eq_legal_iff.mpr ⟨hj, h.symm⟩))

theorem legalWords_nodup : legalWords.Nodup :=
  legalInstrs_nodup.map_on fun _ hi _ hj => encode_injOn_wf (mem_legalInstrs.mp hi) (mem_legalInstrs.mp hj)

theorem mem_legalWords {cw : CmdWord} : cw ∈ legalWords ↔ ∃ i, decode cw = .legal i := by
  simp only [legalWords, List.mem_map, mem_legalInstrs, decode_eq_legal_iff]

/-- Settles O3: the seven rows by `decode_eq_legal_iff_row`, each with the number of bits its mask leaves out, and the
count by the list of the legal words. -/
theorem rowIsMaskMatchAndRange : Obligations.RowIsMaskMatchAndRange := by
  refine ⟨fun cw => ⟨?init, ?push, ?final, ?rdw, ?rdb, ?rdhex, ?stat⟩, legalWords, legalWords_nodup, ?count,
    fun _ => mem_legalWords⟩
  case init => exact decode_eq_legal_iff_shape (op := 1) (k := 0) (by decide) rfl rfl rfl rfl (by decide)
  case push => exact fun b => decode_eq_legal_iff_shape (op := 2) (k := 8) (by decide) rfl rfl rfl rfl b.isLt
  case final => exact decode_eq_legal_iff_shape (op := 3) (k := 0) (by decide) rfl rfl rfl rfl (by decide)
  case rdw =>
    exact fun i => decode_eq_legal_iff_shape_and_range (op := 4) (k := 3) (by decide) rfl rfl rfl decide_eq_true_iff
      fun h : i.toNat ≤ 4 => Nat.lt_of_le_of_lt h (by decide)
  case rdb =>
    exact fun j => decode_eq_legal_iff_shape_and_range (op := 5) (k := 5) (by decide) rfl rfl rfl decide_eq_true_iff
      fun h : j.toNat ≤ 19 => Nat.lt_of_le_of_lt h (by decide)
  case rdhex =>
    exact fun k => decode_eq_legal_iff_shape_and_range (op := 6) (k := 6) (by decide) rfl rfl rfl decide_eq_true_iff
      fun h : k.toNat ≤ 39 => Nat.lt_of_le_of_lt h (by decide)
  case stat => exact decode_eq_legal_iff_shape (op := 7) (k := 0) (by decide) rfl rfl rfl rfl (by decide)
  case count => rw [legalWords, List.length_map, legalInstrs_length]

end Sys2Proof.Proofs
end

section
/-! SUPPORT. O4: the reserved words are the words of the five classes, and each takes IllegalCommand (30_encoding.md
R76). -/

namespace Sys2Proof.Proofs

open Sys2Proof Sys2Proof.Machine

/-- The operation codes of the commands are 1..7. -/
theorem op_range (i : Instr) : 1 ≤ i.op.toNat ∧ i.op.toNat ≤ 7 := by
  cases i <;> simp [Instr.op]

/-- No command is in a reserved class. -/
theorem not_inClass_of_isCommand {op zero : BitVec 4} {arg : Byte} {i : Instr} (h : IsCommand op zero arg i)
    (r : Reserved) : ¬ InClass op zero arg r := by
  obtain ⟨hwf, rfl, rfl, rfl⟩ := h
  have ⟨h1, h7⟩ := op_range i
  cases r with
  | opZero => exact fun h0 : i.op = 0#4 => by rw [h0] at h1; exact absurd h1 (by decide)
  | opHigh => exact Nat.not_le_of_lt (Nat.lt_succ_of_le h7)
  | zeroNonzero => exact fun ⟨_, _, hz⟩ => hz rfl
  | argNonzero => cases i <;> simp [InClass, Instr.op, Instr.arg]
  | indexRange => cases i <;> simp [InClass, Instr.op, Instr.arg, Instr.wf] at hwf ⊢ <;> exact hwf

/-- A word is reserved exactly when its fields are in one of the classes. -/
theorem decode_reserved_iff {cw : CmdWord} :
    (∃ r, decode cw = .reserved r) ↔ ∃ r, InClass (opField cw) (zeroField cw) (argField cw) r := by
  obtain ⟨i, hd, hi⟩ | ⟨r, hd, hr⟩ := decodeFields_cases (opField cw) (zeroField cw) (argField cw)
  · exact iff_of_false (fun ⟨_, h⟩ => absurd (h.symm.trans hd) nofun)
      fun ⟨r, hr⟩ => not_inClass_of_isCommand hi r hr
  · exact iff_of_true ⟨r, hd⟩ ⟨r, hr⟩

/-- What decodes to no command is reserved. -/
theorem decode_reserved_iff_not_legal {cw : CmdWord} :
    (∃ r, decode cw = .reserved r) ↔ ¬ ∃ i, decode cw = .legal i := by
  cases decode cw <;> simp

theorem exists_reserved_iff {p : Reserved → Prop} :
    (∃ r, p r) ↔ p .opZero ∨ p .opHigh ∨ p .zeroNonzero ∨ p .argNonzero ∨ p .indexRange := by
  constructor
  · rintro ⟨r, hr⟩
    cases r <;> simp [hr]
  · rintro (h | h | h | h | h) <;> exact ⟨_, h⟩

/-- Settles O4: the classes by `decode_reserved_iff`, and the step by fault entry's fields. -/
theorem reservedWordsAreTheFiveClasses : Obligations.ReservedWordsAreTheFiveClasses := by
  refine fun cw => ⟨decode_reserved_iff_not_legal, decode_reserved_iff.trans exists_reserved_iff, ?_⟩
  intro r s rest hd hport
  exact ⟨_, step_reserved hport hd, State.faultEntry_phase .., State.faultEntry_response .., rfl,
    fun hp => ⟨if_neg hp, if_neg hp⟩, fun hp => ⟨if_pos hp, if_pos hp⟩⟩

end Sys2Proof.Proofs
end

section
/-! SUPPORT. O17, O22: every command at a command boundary answers what the next-phase table says (30_encoding.md R78),
and so every step from the control invariant has a next state (R71). -/

namespace Sys2Proof.Proofs

open Sys2Proof Sys2Proof.Machine

/-- The outcome is a next state, in the phase of the table's entry, and its response is the entry's fault or none. -/
def AnswersEntry (o : Result) (entry : Phase × Option FaultCode) : Prop :=
  ∃ t r, o = .next t ∧ t.response = some r ∧ t.phase = entry.1 ∧
    match entry.2 with
    | none => r.fault = false
    | some c => r = ⟨true, c.data⟩

theorem faultEntry_answersEntry (s : State) (c : FaultCode) (cw : CmdWord) :
    AnswersEntry (.next (s.faultEntry c cw)) (.fault, some c) :=
  ⟨_, _, rfl, State.faultEntry_response .., State.faultEntry_phase .., rfl⟩

theorem respond_answersEntry {s : State} {p : Phase} (hp : s.phase = p) (d : Word) :
    AnswersEntry (.next (s.respond d)) (p, none) :=
  ⟨_, _, rfl, State.respond_response .., (State.respond_phase ..).trans hp, rfl⟩

/-! ### The entries of the table -/

theorem phaseTable_of_protocolError {i : Instr} {s : State} (h : TakesFault i s .protocolError) (full : Bool) :
    phaseTable (.legal i) s.phase full = (.fault, some .protocolError) := by
  obtain ⟨-, ⟨hp, ⟨b, rfl⟩ | rfl⟩ | ⟨hp, ⟨n, rfl⟩ | ⟨n, rfl⟩ | ⟨n, rfl⟩⟩⟩ := h
  all_goals cases hphase : s.phase <;> simp_all [phaseTable]

theorem phaseTable_readout_done {i : Instr} (h : (∃ n, i = .rdw n) ∨ (∃ n, i = .rdb n) ∨ ∃ n, i = .rdhex n)
    (full : Bool) : phaseTable (.legal i) .done full = (.done, none) := by
  obtain ⟨n, rfl⟩ | ⟨n, rfl⟩ | ⟨n, rfl⟩ := h <;> rfl

/-! ### The commands -/

theorem exec_push_answersEntry {s : State} (hf : s.fill ≤ 63) (b : Byte) :
    AnswersEntry (exec (.push b) s) (phaseTable (.legal (.push b)) s.phase (decide (s.len = s.lenMax))) := by
  by_cases hp : s.phase = .absorb
  · by_cases hl : s.len = s.lenMax
    · rw [exec_push_overflows hp hl, hp, decide_eq_true hl]
      exact faultEntry_answersEntry ..
    · rw [exec_push_absorbs hp hl hf, hp, decide_eq_false hl]
      exact respond_answersEntry ((absorbByte_phase ..).trans hp) 0
  · rw [exec_push_protocol hp, phaseTable_of_protocolError ⟨rfl, .inl ⟨hp, .inl ⟨b, rfl⟩⟩⟩]
    exact faultEntry_answersEntry ..

theorem exec_final_answersEntry {s : State} (hf : s.fill ≤ 63) (full : Bool) :
    AnswersEntry (exec .final s) (phaseTable (.legal .final) s.phase full) := by
  by_cases hp : s.phase = .absorb
  · rw [exec_final_closes hp hf, hp]
    exact respond_answersEntry (State.setPhase_phase ..) 0
  · rw [exec_final_protocol hp, phaseTable_of_protocolError ⟨rfl, .inl ⟨hp, .inr rfl⟩⟩]
    exact faultEntry_answersEntry ..

/-- The three read-outs, with an index in their view. -/
theorem readView_answersEntry {n : Nat} {arg : Byte} (hn : arg.toNat < n) (cw : CmdWord) (view : Words5 → Fin n → Word)
    (s : State) {i : Instr} (hwf : i.wf = true) (hi : (∃ n, i = .rdw n) ∨ (∃ n, i = .rdb n) ∨ ∃ n, i = .rdhex n)
    (full : Bool) : AnswersEntry (readView n arg cw view s) (phaseTable (.legal i) s.phase full) := by
  obtain ⟨hge, -⟩ | ⟨-, hp, he⟩ | ⟨_, hp, he⟩ := readView_cases n arg cw view s
  · exact absurd hn (Nat.not_lt_of_le hge)
  · rw [he, phaseTable_of_protocolError ⟨hwf, .inr ⟨hp, hi⟩⟩]
    exact faultEntry_answersEntry ..
  · rw [he, hp, phaseTable_readout_done hi]
    exact respond_answersEntry hp _

/-- Every legal command at a command boundary answers the table's entry. -/
theorem exec_answersEntry {i : Instr} {s : State} (hwf : i.wf = true) (hf : s.fill ≤ 63) :
    AnswersEntry (exec i s) (phaseTable (.legal i) s.phase (decide (s.len = s.lenMax))) := by
  cases i with
  | init => exact respond_answersEntry (State.leaveFault_phase ..) 0
  | push b => exact exec_push_answersEntry hf b
  | final => exact exec_final_answersEntry hf _
  | rdw n =>
    rw [exec_rdw]
    exact readView_answersEntry (Nat.lt_succ_of_le (of_decide_eq_true hwf)) _ _ s hwf (.inl ⟨n, rfl⟩) _
  | rdb n =>
    rw [exec_rdb]
    exact readView_answersEntry (Nat.lt_succ_of_le (of_decide_eq_true hwf)) _ _ s hwf (.inr (.inl ⟨n, rfl⟩)) _
  | rdhex n =>
    rw [exec_rdhex]
    exact readView_answersEntry (Nat.lt_succ_of_le (of_decide_eq_true hwf)) _ _ s hwf (.inr (.inr ⟨n, rfl⟩)) _
  | stat => exact respond_answersEntry rfl _

/-- Settles O17: a reserved word takes the table's fault in every phase, and a legal one answers its entry. -/
theorem nextPhaseTable : Obligations.NextPhaseTable := by
  intro s cw rest hport hf
  cases hd : decode cw with
  | reserved r =>
    rw [step_reserved hport hd]
    exact faultEntry_answersEntry ..
  | legal i =>
    obtain ⟨hwf, -⟩ := decode_eq_legal_iff.mp hd
    rw [step_legal hport hd]
    exact exec_answersEntry (s := { s with port := rest }) hwf hf

/-- Settles O22: an idle step and a reset event always answer, and a command word answers by the table. -/
theorem stepIsTotal : Obligations.StepIsTotal := by
  intro s hinv
  cases hport : s.port with
  | nil => exact ⟨s, by rw [step, nextEvent, hport]⟩
  | cons e rest =>
    cases e with
    | reset => exact ⟨_, by rw [step, nextEvent, hport]; rfl⟩
    | command cw =>
      obtain ⟨t, -, ht, -⟩ := nextPhaseTable s cw rest hport hinv.fill_le
      exact ⟨t, ht⟩

end Sys2Proof.Proofs
end

section
/-! SUPPORT. O31, O32, O33: what the framer's micro-operations `APPEND`, `PADMARK`, `PADZERO` and `PADLEN` write in the
block buffer (40_framer.md R91, R92, R96, R97). -/

namespace Sys2Proof.Proofs

open Sys2Proof Sys2Proof.Machine

/-! ### One byte at `FILL` -/

/-- Read after a write of one byte that the buffer has. -/
theorem memRead1_memWrite1_of_lt (blk : Block) {p : Nat} (hp : p < 64) (b : Byte) (q : Nat) :
    memRead1 (memWrite1 blk p b) q = if q = p then b else memRead1 blk q := by
  rw [memRead1_memWrite1]
  exact if_congr (and_iff_left hp) rfl rfl

/-- Settles O31: both micro-operations are one byte written at `FILL`. -/
theorem appendAndMarkWriteOneByte : Obligations.AppendAndMarkWriteOneByte := fun s b hf =>
  ⟨rfl, memRead1_memWrite1_of_lt s.blk (Nat.lt_succ_of_le hf) b, rfl,
    memRead1_memWrite1_of_lt s.blk (Nat.lt_succ_of_le hf) 0x80⟩

/-! ### Zeros up to a limit -/

/-- `PADZERO` leaves `FILL` at the limit, or where it was beyond it. -/
theorem padZero_fill_eq_max (s : State) (limit : Nat) : (padZero s limit).fill = max s.fill limit := by
  rw [padZero_fill]; omega

/-- Read after `PADZERO`, for a limit that the buffer has. -/
theorem memRead1_padZero {s : State} {limit : Nat} (hf : s.fill ≤ 64) (hl : limit ≤ 64) (p : Nat) :
    memRead1 (padZero s limit).blk p = if s.fill ≤ p ∧ p < limit then 0x00 else memRead1 s.blk p := by
  rw [padZero_blk, memRead1_zeroFill _ _ _ _ (by omega)]
  exact if_congr (by omega) rfl rfl

/-- Settles O32: the bytes by `memRead1_padZero`, and `FILL` by `padZero_fill_eq_max`. -/
theorem padZeroFillsToTheLimit : Obligations.PadZeroFillsToTheLimit := by
  intro s limit hl hf
  refine ⟨?_, memRead1_padZero hf (by omega)⟩
  rw [← padZero_fill_eq_max]
  rfl

/-! ### The bit length -/

/-- `LEN_MAX` is below `2^61` for every `LEN_BITS`, so that the bit length fits 64 bits (00_scope.md R6). -/
theorem lenMax_lt (s : State) : s.lenMax < 2 ^ 61 := by
  have hpos : 0 < 2 ^ s.lenBits.val := Nat.two_pow_pos _
  have hle : 2 ^ s.lenBits.val ≤ 2 ^ 61 := Nat.pow_le_pow_right (by decide) s.lenBits.property.2
  rw [State.lenMax]
  omega

/-- The bit length of such a message is not truncated. -/
theorem bitLength_toNat {L : Nat} (h : L < 2 ^ 61) : (BitVec.ofNat 64 (8 * L)).toNat = 8 * L := by
  rw [BitVec.toNat_ofNat, Nat.mod_eq_of_lt (by omega)]

/-- The value `PADLEN` writes is the bit length that `Pad` writes. -/
theorem ofNat_mul_eight (L : Nat) : BitVec.ofNat 64 L * 8 = BitVec.ofNat 64 (8 * L) := by
  rw [Nat.mul_comm, BitVec.ofNat_mul]
  rfl

/-- The bytes of the bit length are the length suffix of the last block; truncating the bit length to 64 bits changes
none of its low 8 bytes. -/
theorem bytesBe64_bitLength_getD (L : Nat) {m : Nat} (hm : m < 8) :
    (bytesBe64 (BitVec.ofNat 64 (8 * L))).getD m 0 = lengthByte L (56 + m) := by
  apply BitVec.eq_of_toNat_eq
  rw [bytesBe64_getD_toNat _ hm, lengthByte, BitVec.toNat_ofNat, BitVec.toNat_ofNat]
  interval_cases m <;> omega

/-- Read after `PADLEN`. -/
theorem memRead1_padLen (s : State) (p : Nat) :
    memRead1 (padLen s).blk p = if 56 ≤ p ∧ p < 64 then lengthByte s.len p else memRead1 s.blk p := by
  rw [padLen_blk, ofNat_mul_eight, memWrite8, memRead1_memWriteBytes _ _ _ _ (by rw [bytesBe64_length]),
    bytesBe64_length]
  by_cases hp : 56 ≤ p ∧ p < 64
  · have hoffset : 56 + (p - 56) = p := by omega
    rw [if_pos hp, if_pos hp, bytesBe64_bitLength_getD _ (by omega), hoffset]
  · rw [if_neg hp, if_neg hp]

/-- The two words of the length field are the halves of the bit length. -/
theorem memRead4_padLen {s : State} (h : s.len < 2 ^ 61) :
    (memRead4 (padLen s).blk 56).toNat * 2 ^ 32 + (memRead4 (padLen s).blk 60).toNat = s.len * 8 := by
  have high := memRead4_memWrite8_toNat s.blk (p := 56) (BitVec.ofNat 64 (8 * s.len)) (by decide) (Nat.zero_le 4)
  have low := memRead4_memWrite8_toNat s.blk (p := 56) (BitVec.ofNat 64 (8 * s.len)) (by decide) (le_refl 4)
  rw [bitLength_toNat h] at high low
  rw [padLen_blk, ofNat_mul_eight, high, low]
  omega

/-- Settles O33: the bytes by `memRead1_padLen`, and the whole value by `memRead4_padLen`. -/
theorem padLenWritesTheBitLength : Obligations.PadLenWritesTheBitLength := fun s h =>
  ⟨rfl, memRead1_padLen s, memRead4_padLen (Nat.lt_of_le_of_lt h (lenMax_lt s))⟩

end Sys2Proof.Proofs
end

section
/-! SUPPORT. O8, O9, O10: the whole effect and frame of `INIT`, `PUSH` and `FINAL` (40_framer.md R93, R94, R95), with the
blocks that `FINAL` compresses (R100). -/

namespace Sys2Proof.Proofs

open Sys2Proof Sys2Proof.Machine

/-! ### Words -/

/-- A well-formed command's word decodes to it. -/
theorem decode_encode_of_wf {i : Instr} (h : i.wf = true) : decode (encode i) = .legal i :=
  decode_eq_legal_iff.mpr ⟨h, rfl⟩

/-- Where an operation code has one command, every other word with that code is reserved (R76). -/
theorem decode_reserved_of_op {i : Instr} {cw : CmdWord} (only : ∀ j : Instr, j.op = i.op → j = i)
    (hop : opField cw = i.op) (hne : cw ≠ encode i) : ∃ r, decode cw = .reserved r := by
  rw [decode_reserved_iff_not_legal]
  rintro ⟨j, hj⟩
  obtain ⟨-, rfl⟩ := decode_eq_legal_iff.mp hj
  obtain ⟨hopj, -⟩ := encode_eq_iff.mp (Eq.refl (encode j))
  obtain rfl := only j (hopj.symm.trans hop)
  exact hne rfl

theorem eq_init_of_op {j : Instr} (h : j.op = Instr.init.op) : j = .init := by
  cases j <;> simp [Instr.op] at h ⊢

/-! ### `INIT` -/

/-- `INIT` answers in every state. -/
theorem exec_init (s : State) :
    exec .init s = .next (({ s with h := iv, len := 0, fill := 0 } : State).leaveFault.respond 0) := rfl

/-- `STATUS` in `ABSORB` with an empty buffer and no fault recorded (R30). -/
theorem status_of_opened {s : State} (hphase : s.phase = .absorb) (hfill : s.fill = 0) (herr : s.err = none)
    (hbad : s.badcmd = 0) : s.status = 0x00000001#32 := by
  rw [State.status, hphase, hfill, herr, hbad]
  decide

/-- Settles O8: the effect and `STATUS` by computation, and the other words by `decode_reserved_of_op`. -/
theorem initOpensTransaction : Obligations.InitOpensTransaction :=
  ⟨fun _ => rfl, fun s => ⟨_, exec_init s, status_of_opened rfl rfl rfl rfl⟩, decode_encode_of_wf (i := .init) rfl,
    fun _ hop hne => decode_reserved_of_op (i := .init) (fun _ => eq_init_of_op) hop hne⟩

/-! ### `PUSH` -/

/-- Fault entry outside phase `FAULT` records the fault (R170). -/
theorem faultEntry_of_ne_fault {s : State} (h : s.phase ≠ .fault) (c : FaultCode) (cw : CmdWord) :
    s.faultEntry c cw =
      { s with err := some c, badcmd := cw, phase := .fault, response := some ⟨true, c.data⟩ } := by
  rw [State.faultEntry, if_neg h, if_neg h]

theorem WritesDataOnly.trans {s t u : State} (hst : WritesDataOnly s t) (htu : WritesDataOnly t u) :
    WritesDataOnly s u := by
  cases s; cases t; cases u
  simp only [WritesDataOnly, State.mk.injEq] at hst htu ⊢
  simp [hst, htu]

theorem absorbByte_writesDataOnly (s : State) (b : Byte) : WritesDataOnly s (absorbByte s b) := by
  by_cases hf : s.fill = 63
  · rw [absorbByte_full b hf]
    exact (append_writesDataOnly s b).trans (compress_writesDataOnly _)
  · rw [absorbByte_open b hf]
    exact append_writesDataOnly s b

theorem absorbByte_h_full {s : State} (b : Byte) (hf : s.fill = 63) :
    (absorbByte s b).h = compressBlock s.h (absorbByte s b).blk := by
  rw [absorbByte_full b hf, compress_h_eq_compressBlock, append_h, compress_blk]

theorem absorbByte_w_full {s : State} (b : Byte) (hf : s.fill = 63) :
    (absorbByte s b).w.toList = schedule (absorbByte s b).blk := by
  rw [absorbByte_full b hf, compress_w_toList, compress_blk]

theorem absorbByte_wr_full {s : State} (b : Byte) (hf : s.fill = 63) :
    (absorbByte s b).wr = rounds s.h (schedule (absorbByte s b).blk) := by
  rw [absorbByte_full b hf, compress_wr_eq_rounds, append_h, compress_blk]

/-- The response, after data has been written. -/
theorem WritesDataOnly.respond {s t : State} (h : WritesDataOnly s t) (d : Word) : t.respond d = { s with
    h := t.h, wr := t.wr, w := t.w, blk := t.blk, fill := t.fill, len := t.len, response := some ⟨false, d⟩ } :=
  congrArg (fun u : State => u.respond d) h

/-- Settles O9: by `PUSH`'s three cases, and whether the byte completes the block. -/
theorem pushAbsorbsOneByte : Obligations.PushAbsorbsOneByte := by
  intro b s
  refine ⟨fun hp hl hf => ⟨_, exec_push_absorbs hp hl hf, fun p => ?byte, fun hlt => ?below, fun hfull => ?full⟩,
    fun hp hl => ?overflow, fun hp => ?protocol, ?word⟩
  case byte =>
    rw [State.respond_blk, absorbByte_blk]
    exact memRead1_memWrite1_of_lt s.blk (Nat.lt_succ_of_le hf) b p
  case below =>
    rw [absorbByte_open b (Nat.ne_of_lt hlt)]
    rfl
  case full =>
    have frame := (absorbByte_writesDataOnly s b).respond 0
    rw [absorbByte_fill, if_pos hfull, absorbByte_len] at frame
    rw [State.respond_h, State.respond_w, State.respond_wr, State.respond_blk]
    exact ⟨absorbByte_h_full b hfull, absorbByte_w_full b hfull, absorbByte_wr_full b hfull, frame⟩
  case overflow =>
    rw [exec_push_overflows hp hl, Laws.encode_push, faultEntry_of_ne_fault (by rw [hp]; decide)]
    rfl
  case protocol => rw [exec_push_protocol hp, Laws.encode_push]
  case word => rw [← Laws.encode_push, decode_encode_of_wf rfl]

/-! ### The blocks of `FINAL` -/

/-- The mark, the zeros and the length complete the block in the buffer (R100, `r <= 55`). -/
theorem padLen_padMark_blk {s : State} (hf : s.fill ≤ 55) :
    (padLen (padZero (padMark s) 56)).blk = lastBlock s.blk s.fill s.len := by
  refine block_ext fun p hp => ?_
  rw [memRead1_padLen, memRead1_padZero (by rw [padMark_fill]; omega) (by decide), padZero_len, padMark_len,
    padMark_fill, padMark_blk, memRead1_memWrite1_of_lt _ (by omega), lastBlock, memRead1_ofFn, dif_pos hp]
  dsimp only
  obtain hlt | rfl | hgt := Nat.lt_trichotomy p s.fill
  · rw [if_neg (by omega), if_neg (by omega), if_neg (by omega), if_pos hlt]
  · rw [if_neg (by omega), if_neg (by omega), if_pos rfl, if_neg (by omega), if_pos rfl]
  · by_cases h56 : p < 56
    · rw [if_neg (by omega), if_pos (by omega), if_neg (by omega), if_neg (by omega), if_pos h56]
    · rw [if_pos (by omega), if_neg (by omega), if_neg (by omega), if_neg h56]

/-- From an empty buffer, the zeros and the length are the block that only carries the length (R100, `r >= 56`). -/
theorem padLen_padZero_blk {s : State} (hf : s.fill = 0) : (padLen (padZero s 56)).blk = lengthBlock s.len := by
  refine block_ext fun p hp => ?_
  rw [memRead1_padLen, memRead1_padZero (by omega) (by decide), padZero_len, lengthBlock, memRead1_ofFn, dif_pos hp]
  dsimp only
  by_cases h56 : p < 56
  · rw [if_neg (by omega), if_pos (by omega), if_pos h56]
  · rw [if_pos (by omega), if_neg h56]

/-! ### `FINAL` -/

theorem closeMessage_blk_one {s : State} (hf : s.fill ≤ 55) :
    (closeMessage s).blk = lastBlock s.blk s.fill s.len := by
  rw [closeMessage_one hf, compress_blk, padLen_padMark_blk hf]

theorem closeMessage_blk_two {s : State} (hf : 56 ≤ s.fill) : (closeMessage s).blk = lengthBlock s.len := by
  rw [closeMessage_two hf, compress_blk, padLen_padZero_blk (compress_fill _), compress_len, padZero_len, padMark_len]

/-- The schedule is the one of the last block. -/
theorem closeMessage_w_toList (s : State) : (closeMessage s).w.toList = schedule (closeMessage s).blk := by
  rw [closeMessage, compress_w_toList, compress_blk]

theorem closeMessage_wr_one {s : State} (hf : s.fill ≤ 55) :
    (closeMessage s).wr = rounds s.h (schedule (closeMessage s).blk) := by
  rw [closeMessage_one hf, compress_wr_eq_rounds, compress_blk, padLen_h, padZero_h, padMark_h]

theorem closeMessage_wr_two {s : State} (hf : 56 ≤ s.fill) (hf63 : s.fill ≤ 63) : (closeMessage s).wr =
    rounds (compressBlock s.h (earlyBlock s.blk s.fill)) (schedule (closeMessage s).blk) := by
  rw [closeMessage_two hf, compress_wr_eq_rounds, compress_blk, padLen_h, padZero_h, compress_h_eq_compressBlock,
    padZero_padMark_blk hf63, padZero_h, padMark_h]

/-- One block is compressed when the padding fits the buffer. -/
theorem closeMessage_h_one {s : State} (hf : s.fill ≤ 55) :
    (closeMessage s).h = compressBlock s.h (lastBlock s.blk s.fill s.len) := by
  rw [closeMessage_h (by omega), if_pos hf, closeMessage_wr_one hf, closeMessage_blk_one hf, compressBlock_eq]

/-- Two blocks are compressed when it does not. -/
theorem closeMessage_h_two {s : State} (hf : 56 ≤ s.fill) (hf63 : s.fill ≤ 63) : (closeMessage s).h =
    compressBlock (compressBlock s.h (earlyBlock s.blk s.fill)) (lengthBlock s.len) := by
  rw [closeMessage_h hf63, if_neg (by omega), closeMessage_wr_two hf hf63, closeMessage_blk_two hf,
    ← compressBlock_eq]

theorem closeMessage_writesDataOnly (s : State) : WritesDataOnly s (closeMessage s) := by
  have ending (u : State) : WritesDataOnly u (compress (padLen (padZero u 56))) :=
    ((padZero_writesDataOnly u 56).trans (padLen_writesDataOnly _)).trans (compress_writesDataOnly _)
  have marked := padMark_writesDataOnly s
  by_cases hf : s.fill ≤ 55
  · rw [closeMessage_one hf]
    exact marked.trans (ending _)
  · rw [closeMessage_two (by omega)]
    exact ((marked.trans (padZero_writesDataOnly _ 64)).trans (compress_writesDataOnly _)).trans (ending _)

/-- `PHASE <- p` and the response, after data has been written. -/
theorem WritesDataOnly.setPhase_respond {s t : State} (h : WritesDataOnly s t) (p : Phase) (d : Word) :
    (t.setPhase p).respond d = { s with
      h := t.h, wr := t.wr, w := t.w, blk := t.blk, fill := t.fill, len := t.len, phase := p,
      response := some ⟨false, d⟩ } :=
  congrArg (fun u : State => (u.setPhase p).respond d) h

/-- In `DONE` no command but `INIT` changes `H` (R140). -/
theorem exec_h_of_done {i : Instr} {s t : State} (hp : s.phase = .done) (hi : i ≠ .init) (h : exec i s = .next t) :
    t.h = s.h := by
  by_contra hne
  obtain ⟨hinit, -⟩ | ⟨-, hphase, -⟩ | ⟨-, hphase, -⟩ := exec_h_changes h hne
  · exact hi hinit
  · exact absurd (hp.symm.trans hphase) (by decide)
  · exact absurd (hp.symm.trans hphase) (by decide)

/-- Settles O10: one block or two by `closeMessage`'s two cases, and the frame of each. -/
theorem finalPadsAndCloses : Obligations.FinalPadsAndCloses := by
  intro s
  refine ⟨fun hp hf => ⟨_, exec_final_closes hp hf, fun h55 => ?one, fun h56 => ?two, ?schedule, ?frame⟩,
    fun hp => exec_final_protocol hp, decode_encode_of_wf (i := .final) rfl, fun _ _ => exec_h_of_done⟩
  case one =>
    simp only [State.respond_h, State.respond_wr, State.respond_blk, State.setPhase_h, State.setPhase_wr,
      State.setPhase_blk]
    exact ⟨closeMessage_blk_one h55, closeMessage_h_one h55, closeMessage_wr_one h55⟩
  case two =>
    simp only [State.respond_h, State.respond_wr, State.respond_blk, State.setPhase_h, State.setPhase_wr,
      State.setPhase_blk]
    exact ⟨closeMessage_blk_two h56, closeMessage_h_two h56 hf, closeMessage_wr_two h56 hf⟩
  case schedule =>
    rw [State.respond_w, State.respond_blk, State.setPhase_w, State.setPhase_blk]
    exact closeMessage_w_toList s
  case frame =>
    simp only [State.respond_h, State.respond_wr, State.respond_w, State.respond_blk, State.setPhase_h,
      State.setPhase_wr, State.setPhase_w, State.setPhase_blk]
    have frame := (closeMessage_writesDataOnly s).setPhase_respond .done 0
    rwa [closeMessage_fill, closeMessage_len] at frame

end Sys2Proof.Proofs
end

section
/-! SUPPORT. O41: `split64` cuts a sequence into its blocks, and `Pad` is the message, the mark, the zeros and the length
(40_framer.md R90, R98). -/

namespace Sys2Proof.Proofs

open Sys2Proof Sys2Proof.Machine

/-! ### `split64` -/

theorem memRead1_blockAt (xs : List Byte) (n : Nat) {p : Nat} (hp : p < 64) :
    memRead1 (blockAt xs n) p = xs.getD (64 * n + p) 0 := by
  rw [blockAt, memRead1_ofFn, dif_pos hp]

/-- A whole block holds its 64 bytes of the sequence. -/
theorem blockAt_toList {xs : List Byte} {n : Nat} (h : 64 * n + 64 ≤ xs.length) :
    (blockAt xs n).toList = (xs.drop (64 * n)).take 64 := by
  refine List.ext_getElem (by simp; omega) fun p h1 h2 => ?_
  have hp : p < 64 := by simpa using h1
  have hin : 64 * n + p < xs.length := by omega
  simp [blockAt, hin]

/-- The first `k` blocks are the first `64 * k` bytes. -/
theorem flatMap_map_blockAt {xs : List Byte} {k : Nat} (h : 64 * k ≤ xs.length) :
    ((List.range k).map (blockAt xs)).flatMap Vector.toList = xs.take (64 * k) := by
  induction k with
  | zero => rfl
  | succ k ih =>
    rw [List.range_succ, List.map_append, List.flatMap_append, ih (by omega), Nat.mul_succ, List.take_add,
      ← blockAt_toList (by omega)]
    simp

@[simp] theorem split64_length (xs : List Byte) : (split64 xs).length = xs.length / 64 := by
  rw [split64, List.length_map, List.length_range]

/-- The blocks of a sequence of whole blocks are the sequence. -/
theorem split64_flatMap {xs : List Byte} (h : xs.length % 64 = 0) : (split64 xs).flatMap Vector.toList = xs := by
  rw [split64, flatMap_map_blockAt (Nat.mul_div_le ..), List.take_of_length_le (by omega)]

/-! ### `Pad` -/

/-- The number of zero bytes of the padding (R98). -/
def padZeros (L : Nat) : Nat := ((55 - (L : Int)) % 64).toNat

/-- What `Pad` puts after a message of `L` bytes. -/
def padTail (L : Nat) : List Byte :=
  0x80 :: (List.replicate (padZeros L) 0x00 ++ bytesBe64 (BitVec.ofNat 64 (8 * L)))

theorem padBytes_eq (M : List Byte) : padBytes M = M ++ padTail M.length := by
  simp [padBytes, padTail, padZeros]

theorem padZeros_lt (L : Nat) : padZeros L < 64 := by
  rw [padZeros]; omega

theorem mod_padZeros (L : Nat) : (L + 1 + padZeros L) % 64 = 56 := by
  rw [padZeros]; omega

theorem padTail_length (L : Nat) : (padTail L).length = 9 + padZeros L := by
  rw [padTail, List.length_cons, List.length_append, List.length_replicate, bytesBe64_length]
  omega

theorem padBytes_length (M : List Byte) : (padBytes M).length = M.length + 9 + padZeros M.length := by
  rw [padBytes_eq, List.length_append, padTail_length, Nat.add_assoc]

/-- Settles O41: the padded message is whole blocks, so `split64` loses nothing of it. -/
theorem padMeetsTheFramerContract : Obligations.PadMeetsTheFramerContract := by
  intro M hM
  have hlt := padZeros_lt M.length
  have hmod := mod_padZeros M.length
  refine ⟨?count, padZeros M.length, hlt, hmod, ?bytes, bitLength_toNat hM⟩
  case count =>
    rw [pad, split64_length, padBytes_length]
    omega
  case bytes =>
    rw [pad, split64_flatMap (by rw [padBytes_length]; omega), padBytes, padZeros]

end Sys2Proof.Proofs
end

section
/-! SUPPORT. O42, O43, O44: what a transaction has absorbed (20_memory.md R65) through `INIT`, `PUSH` and `FINAL`
(40_framer.md R93, R94, R95), and that `FINAL` compresses the rest of `Pad(M)` (R99, R100). -/

namespace Sys2Proof.Proofs

open Sys2Proof Sys2Proof.Machine

/-! ### The blocks that more bytes complete -/

/-- A whole block does not change as bytes are appended. -/
theorem blockAt_append {xs : List Byte} (ys : List Byte) {n : Nat} (h : n < xs.length / 64) :
    blockAt (xs ++ ys) n = blockAt xs n := by
  refine block_ext fun p hp => ?_
  rw [memRead1_blockAt _ _ hp, memRead1_blockAt _ _ hp, List.getD_append _ _ _ _ (by omega)]

/-- Appending bytes that complete `k` blocks appends these blocks. -/
theorem split64_append {xs ys : List Byte} {k : Nat} (h : (xs.length + ys.length) / 64 = xs.length / 64 + k) :
    split64 (xs ++ ys) = split64 xs ++ (List.range' (xs.length / 64) k).map (blockAt (xs ++ ys)) := by
  have old : (List.range (xs.length / 64)).map (blockAt (xs ++ ys)) = split64 xs :=
    List.map_congr_left fun n hn => blockAt_append ys (List.mem_range.mp hn)
  rw [split64, List.length_append, h, ← old, ← List.map_append, List.range_eq_range', List.range_eq_range',
    ← List.range'_append_1, Nat.zero_add]

/-! ### `INIT` and `PUSH` -/

/-- Settles O42: nothing has been absorbed when the counters are 0 and `H` is `IV`. -/
theorem initAbsorbsTheEmptyMessage : Obligations.InitAbsorbsTheEmptyMessage := fun s =>
  ⟨_, exec_init s, rfl, rfl, rfl, rfl, fun p hp => absurd hp p.not_lt_zero, rfl, rfl⟩

/-- The response is no part of what has been absorbed. -/
theorem absorbing_respond {M : List Byte} {s : State} (h : Absorbing M s) (d : Word) : Absorbing M (s.respond d) :=
  { h with }

/-- Nor is what the host has to present. -/
theorem absorbing_port {M : List Byte} {s : State} (h : Absorbing M s) (rest : List HostEvent) :
    Absorbing M { s with port := rest } := { h with }

theorem fill_le_of_absorbing {M : List Byte} {s : State} (h : Absorbing M s) : s.fill ≤ 63 := by
  have := h.fill_eq
  omega

/-- The length as whole blocks and the bytes in the buffer. -/
theorem length_of_absorbing {M : List Byte} {s : State} (h : Absorbing M s) :
    M.length = 64 * (M.length / 64) + s.fill := by
  have := h.fill_eq
  omega

/-- With one byte more written at `FILL`, the buffer holds the rest of the message with that byte. -/
theorem memRead1_memWrite1_of_absorbing {M : List Byte} {s : State} (h : Absorbing M s) (b : Byte) {p : Nat}
    (hp : p ≤ s.fill) :
    memRead1 (memWrite1 s.blk s.fill b) p = (M ++ [b]).getD (64 * (M.length / 64) + p) 0 := by
  have hfill := fill_le_of_absorbing h
  have hlen := length_of_absorbing h
  rw [memRead1_memWrite1_of_lt _ (by omega)]
  obtain hlt | rfl := Nat.lt_or_eq_of_le hp
  · rw [if_neg (Nat.ne_of_lt hlt), h.blk_eq p hlt, List.getD_append _ _ _ _ (by omega)]
  · rw [if_pos rfl, List.getD_append_right _ _ _ _ (by omega), ← hlen, Nat.sub_self, List.getD_cons_zero]

/-- The chaining value after one byte more. -/
theorem absorbByte_h_of_absorbing {M : List Byte} {s : State} (h : Absorbing M s) (b : Byte) :
    (absorbByte s b).h = absorbBlocks iv (split64 (M ++ [b])) := by
  have hfill := fill_le_of_absorbing h
  have hlen := length_of_absorbing h
  by_cases hfull : s.fill = 63
  · have block : memWrite1 s.blk s.fill b = blockAt (M ++ [b]) (M.length / 64) := block_ext fun p hp => by
      rw [memRead1_memWrite1_of_absorbing h b (by omega), memRead1_blockAt _ _ hp]
    rw [absorbByte_h_full b hfull, absorbByte_blk, block, h.h_eq,
      split64_append (k := 1) (by rw [List.length_singleton]; omega), absorbBlocks_append]
    rfl
  · rw [absorbByte_open b hfull, append_h, h.h_eq, split64_append (k := 0) (by rw [List.length_singleton]; omega)]
    simp

/-- The transaction has absorbed one byte more. -/
theorem absorbing_absorbByte {M : List Byte} {s : State} (h : Absorbing M s) (b : Byte) :
    Absorbing (M ++ [b]) (absorbByte s b) := by
  have hfill := fill_le_of_absorbing h
  have hlen := length_of_absorbing h
  have hlen' : (M ++ [b]).length = M.length + 1 := List.length_append
  refine ⟨?_, ?_, ?fill, absorbByte_h_of_absorbing h b, ?blk, ?_, ?_⟩
  case fill =>
    rw [absorbByte_fill, hlen']
    split <;> omega
  case blk =>
    intro p hp
    rw [absorbByte_fill] at hp
    split at hp
    · exact absurd hp p.not_lt_zero
    · have hblocks : (M ++ [b]).length / 64 = M.length / 64 := by omega
      rw [absorbByte_blk, memRead1_memWrite1_of_absorbing h b (by omega), hblocks]
  · rw [absorbByte_phase, h.phase_eq]
  · rw [absorbByte_len, h.len_eq, hlen']
  · rw [absorbByte_err, h.err_eq]
  · rw [absorbByte_badcmd, h.badcmd_eq]

/-- `PUSH` below the limit absorbs its byte. -/
theorem exec_push_of_absorbing {M : List Byte} {s : State} (h : Absorbing M s) (hmax : M.length < s.lenMax) (b : Byte) :
    exec (.push b) s = .next ((absorbByte s b).respond 0) :=
  exec_push_absorbs h.phase_eq (by rw [h.len_eq]; exact Nat.ne_of_lt hmax) (fill_le_of_absorbing h)

/-- Settles O43: `PUSH` answers by `exec_push_of_absorbing`, and its byte is absorbed by `absorbing_absorbByte`. -/
theorem pushExtendsTheMessage : Obligations.PushExtendsTheMessage := fun _ b _ h hmax =>
  ⟨_, exec_push_of_absorbing h hmax b, State.respond_response .., absorbing_respond (absorbing_absorbByte h b) 0⟩

/-! ### `FINAL` -/

/-- The padding, byte by byte: the mark, the zeros, the length. -/
theorem padTail_getD (L j : Nat) : (padTail L).getD j 0 =
    if j = 0 then 0x80 else if j < 1 + padZeros L then 0x00
    else (bytesBe64 (BitVec.ofNat 64 (8 * L))).getD (j - (1 + padZeros L)) 0 := by
  cases j with
  | zero => rfl
  | succ j =>
    rw [if_neg (Nat.succ_ne_zero j), padTail, List.getD_cons_succ]
    by_cases hj : j < padZeros L
    · rw [if_pos (by omega), List.getD_append _ _ _ _ (by rwa [List.length_replicate]), List.getD_replicate _ hj]
    · have hoffset : j + 1 - (1 + padZeros L) = j - padZeros L := by omega
      rw [if_neg (by omega), List.getD_append_right _ _ _ _ (by rw [List.length_replicate]; omega),
        List.length_replicate, hoffset]

/-- The zeros of the padding end where the length begins: at offset 56 of the block in the buffer, or of the next. -/
theorem padZeros_of_absorbing {M : List Byte} {s : State} (h : Absorbing M s) :
    s.fill + 1 + padZeros M.length = if s.fill ≤ 55 then 56 else 120 := by
  have hlen := length_of_absorbing h
  have hfill := fill_le_of_absorbing h
  rw [padZeros]
  split <;> omega

/-- The padded message from the first byte in the buffer on, up to its end `e + 8`. -/
theorem padBytes_getD_of_absorbing {M : List Byte} {s : State} (h : Absorbing M s) {e p : Nat}
    (he : s.fill + 1 + padZeros M.length = e) (hp : p < e + 8) :
    (padBytes M).getD (64 * (M.length / 64) + p) 0 =
      if p < s.fill then memRead1 s.blk p else if p = s.fill then 0x80 else if p < e then 0x00
      else lengthByte s.len (p + 56 - e) := by
  have hlen := length_of_absorbing h
  rw [padBytes_eq]
  by_cases hlt : p < s.fill
  · rw [if_pos hlt, List.getD_append _ _ _ _ (by omega), h.blk_eq p hlt]
  · have hoffset : 64 * (M.length / 64) + p - M.length = p - s.fill := by omega
    rw [if_neg hlt, List.getD_append_right _ _ _ _ (by omega), hoffset, padTail_getD]
    refine if_congr (by omega) rfl ?_
    by_cases hzero : p < e
    · rw [if_pos hzero, if_pos (by omega)]
    · have hbyte : 56 + (p - s.fill - (1 + padZeros M.length)) = p + 56 - e := by omega
      rw [if_neg hzero, if_neg (by omega), bytesBe64_bitLength_getD _ (by omega), hbyte, h.len_eq]

/-- The block that `FINAL` compresses when the padding fits the buffer. -/
theorem blockAt_padBytes_last {M : List Byte} {s : State} (h : Absorbing M s) (hf : s.fill ≤ 55) :
    blockAt (padBytes M) (M.length / 64) = lastBlock s.blk s.fill s.len := by
  have he := padZeros_of_absorbing h
  rw [if_pos hf] at he
  refine block_ext fun p hp => ?_
  rw [memRead1_blockAt _ _ hp, padBytes_getD_of_absorbing h he hp, lastBlock, memRead1_ofFn, dif_pos hp,
    Nat.add_sub_cancel]

/-- The first of the two blocks that it compresses otherwise. -/
theorem blockAt_padBytes_early {M : List Byte} {s : State} (h : Absorbing M s) (hf : 56 ≤ s.fill) :
    blockAt (padBytes M) (M.length / 64) = earlyBlock s.blk s.fill := by
  have he := padZeros_of_absorbing h
  rw [if_neg (by omega)] at he
  refine block_ext fun p hp => ?_
  have hzero : p < 120 := by omega
  rw [memRead1_blockAt _ _ hp, padBytes_getD_of_absorbing h he (by omega), if_pos hzero, earlyBlock, memRead1_ofFn,
    dif_pos hp]

/-- The second of the two. -/
theorem blockAt_padBytes_length {M : List Byte} {s : State} (h : Absorbing M s) (hf : 56 ≤ s.fill) :
    blockAt (padBytes M) (M.length / 64 + 1) = lengthBlock s.len := by
  have hfill := fill_le_of_absorbing h
  have he := padZeros_of_absorbing h
  rw [if_neg (by omega)] at he
  refine block_ext fun p hp => ?_
  have hoffset : 64 + p + 56 - 120 = p := by omega
  rw [memRead1_blockAt _ _ hp, Nat.mul_succ, Nat.add_assoc, padBytes_getD_of_absorbing h he (by omega),
    if_neg (by omega), if_neg (by omega), hoffset, lengthBlock, memRead1_ofFn, dif_pos hp]
  dsimp only
  exact if_congr (by omega) rfl rfl

/-- `FINAL` compresses exactly the blocks of `Pad(M)` that have not been compressed yet. -/
theorem closeMessage_h_of_absorbing {M : List Byte} {s : State} (h : Absorbing M s) :
    (closeMessage s).h = hashMessage M := by
  have hlen := length_of_absorbing h
  have he := padZeros_of_absorbing h
  by_cases hf : s.fill ≤ 55
  · rw [if_pos hf] at he
    have blocks : pad M = split64 M ++ [lastBlock s.blk s.fill s.len] := by
      rw [← blockAt_padBytes_last h hf, pad, padBytes_eq,
        split64_append (k := 1) (by rw [padTail_length]; omega)]
      rfl
    rw [closeMessage_h_one hf, hashMessage, blocks, absorbBlocks_append, ← h.h_eq]
    rfl
  · rw [if_neg hf] at he
    have h56 : 56 ≤ s.fill := by omega
    have blocks : pad M = split64 M ++ [earlyBlock s.blk s.fill, lengthBlock s.len] := by
      rw [← blockAt_padBytes_early h h56, ← blockAt_padBytes_length h h56, pad, padBytes_eq,
        split64_append (k := 2) (by rw [padTail_length]; omega)]
      rfl
    rw [closeMessage_h_two h56 (fill_le_of_absorbing h), hashMessage, blocks, absorbBlocks_append, ← h.h_eq]
    rfl

/-- A closed transaction over the message `M`: its digest is in `H`, and no fault is recorded. -/
structure Hashed (M : List Byte) (t : State) : Prop where
  phase_eq : t.phase = .done
  h_eq : t.h = hashMessage M
  len_eq : t.len = M.length
  fill_eq : t.fill = 0
  err_eq : t.err = none
  badcmd_eq : t.badcmd = 0

/-- What `FINAL` leaves. -/
theorem hashed_closeMessage {M : List Byte} {s : State} (h : Absorbing M s) :
    Hashed M (((closeMessage s).setPhase .done).respond 0) where
  phase_eq := by rw [State.respond_phase, State.setPhase_phase]
  h_eq := by rw [State.respond_h, State.setPhase_h, closeMessage_h_of_absorbing h]
  len_eq := by rw [State.respond_len, State.setPhase_len, closeMessage_len, h.len_eq]
  fill_eq := by rw [State.respond_fill, State.setPhase_fill, closeMessage_fill]
  err_eq := by rw [State.respond_err, State.setPhase_err, closeMessage_err, h.err_eq]
  badcmd_eq := by rw [State.respond_badcmd, State.setPhase_badcmd, closeMessage_badcmd, h.badcmd_eq]

/-- `FINAL` answers in a transaction that has absorbed `M`. -/
theorem exec_final_of_absorbing {M : List Byte} {s : State} (h : Absorbing M s) :
    exec .final s = .next (((closeMessage s).setPhase .done).respond 0) :=
  exec_final_closes h.phase_eq (fill_le_of_absorbing h)

/-- Settles O44: by the closed transaction that `FINAL` leaves. -/
theorem finalProducesTheHash : Obligations.FinalProducesTheHash := by
  intro M s h _
  obtain ⟨hphase, hh, hlen, hfill, herr, -⟩ := hashed_closeMessage h
  exact ⟨_, exec_final_of_absorbing h, State.respond_response .., hphase, hh, hlen, hfill, herr⟩

end Sys2Proof.Proofs
end

section
/-! SUPPORT. O45: the commands of one hash transaction, run from any state (40_framer.md R99). -/

namespace Sys2Proof.Proofs

open Sys2Proof Sys2Proof.Machine

/-- `k` steps lead from `s` to `t`, and each of them answers `(0, 0)`. -/
def AnswersAll (k : Nat) (s t : State) : Prop :=
  Sys2Proof.core.run k s = .next t ∧
    ∀ j, j < k → ∃ u, Sys2Proof.core.run (j + 1) s = .next u ∧ u.response = some ⟨false, 0⟩

theorem answersAll_zero (s : State) : AnswersAll 0 s s := ⟨core_run_zero s, fun j hj => absurd hj j.not_lt_zero⟩

/-- One step that answers `(0, 0)`, before the others. -/
theorem answersAll_succ {k : Nat} {s t u : State} (hst : step s = .next t) (hr : t.response = some ⟨false, 0⟩)
    (htu : AnswersAll k t u) : AnswersAll (k + 1) s u := by
  obtain ⟨hrun, hall⟩ := htu
  refine ⟨(core_run_succ hst k).trans hrun, fun j hj => ?_⟩
  cases j with
  | zero => exact ⟨t, (core_run_succ hst 0).trans (core_run_zero t), hr⟩
  | succ j =>
    rw [core_run_succ hst]
    exact hall j (Nat.lt_of_succ_lt_succ hj)

/-- The step on a well-formed command's word. -/
theorem step_encode {i : Instr} (hwf : i.wf = true) {s : State} {rest : List HostEvent}
    (hport : s.port = .command (encode i) :: rest) : step s = exec i { s with port := rest } :=
  step_legal hport (decode_encode_of_wf hwf)

/-- What the host presents to complete a message: the bytes `N`, and `FINAL`. -/
def closingEvents (N : List Byte) : List HostEvent :=
  (N.map (fun b => encode (.push b)) ++ [encode .final]).map HostEvent.command

/-- The bytes `N` and `FINAL`, after `M` has been absorbed, by induction on the bytes. -/
theorem answersAll_closingEvents {N M : List Byte} {s : State} {rest : List HostEvent} (h : Absorbing M s)
    (hmax : M.length + N.length ≤ s.lenMax) (hport : s.port = closingEvents N ++ rest) :
    ∃ t, AnswersAll (N.length + 1) s t ∧ Hashed (M ++ N) t ∧ t.port = rest := by
  induction N generalizing M s with
  | nil =>
    have h' := absorbing_port h rest
    have hstep := (step_encode (i := .final) (rest := rest) rfl hport).trans (exec_final_of_absorbing h')
    refine ⟨_, answersAll_succ hstep (State.respond_response ..) (answersAll_zero _), ?_, ?_⟩
    · rw [List.append_nil]
      exact hashed_closeMessage h'
    · rw [State.respond_port, State.setPhase_port, closeMessage_port]
  | cons b N ih =>
    rw [List.length_cons] at hmax
    have h' := absorbing_port h (closingEvents N ++ rest)
    have hroom : M.length < ({ s with port := closingEvents N ++ rest } : State).lenMax :=
      Nat.lt_of_lt_of_le (by omega) hmax
    have hstep := (step_encode (i := .push b) rfl hport).trans (exec_push_of_absorbing h' hroom b)
    obtain ⟨t, hall, hhash, hrest⟩ := ih (absorbing_respond (absorbing_absorbByte h' b) 0)
      (by
        rw [State.lenMax, State.respond_lenBits, absorbByte_lenBits, List.length_append, List.length_singleton]
        exact Nat.le_trans (by omega) hmax)
      (by rw [State.respond_port, absorbByte_port])
    rw [List.append_assoc, List.singleton_append] at hhash
    exact ⟨t, answersAll_succ hstep (State.respond_response ..) hall, hhash, hrest⟩

/-- Settles O45: `INIT` opens the transaction from any state, and the bytes and `FINAL` close it. -/
theorem transactionComputesHash : Obligations.TransactionComputesHash := by
  intro M s rest hmax hport
  have hinit := step_encode (i := .init) rfl (rest := closingEvents M ++ rest) hport
  obtain ⟨u, hu, habs⟩ := initAbsorbsTheEmptyMessage { s with port := closingEvents M ++ rest }
  obtain rfl := Host.Outcome.next.inj ((exec_init _).symm.trans hu)
  obtain ⟨t, hall, ⟨hphase, hh, hlen, hfill, herr, hbad⟩, hrest⟩ :=
    answersAll_closingEvents (N := M) habs (by rw [List.length_nil, Nat.zero_add]; exact hmax) rfl
  obtain ⟨hrun, hanswers⟩ := answersAll_succ (hinit.trans hu) (State.respond_response ..) hall
  exact ⟨hanswers, t, hrun, hphase, hh, hlen, hfill, herr, hbad, hrest⟩

end Sys2Proof.Proofs
end

section
/-! SUPPORT. O34, O35: `W` after `LOADW`, and after `LOADW` and the 64 `EXPAND`s (41_scheduler.md R111 to R114), from
the words that the loads, the `EXPAND`s and `Schedule` give, which are proved with `COMPRESS` above. -/

namespace Sys2Proof.Proofs

open Sys2Proof Sys2Proof.Machine

/-- `LOADW` writes the block's words to `W[0..15]` and leaves every later word. -/
theorem wordAt_loadW (s : State) (t : Nat) :
    wordAt (loadW s).w t = if t < 16 then memRead4 s.blk (4 * t) else wordAt s.w t := by
  rw [loadW_w, wordAt_foldl_loadWord _ _ (by omega)]

/-- Nothing but `W` changes in `LOADW`. -/
theorem loadW_frame (s : State) : loadW s = { s with w := (loadW s).w } := rfl

/-- Settles O34: each loaded word is a four-byte read, whose value is `memRead4_toNat`; the `EXPAND` is `wordAt_expand`. -/
theorem loadAndExpandWriteTheirWords : Obligations.LoadAndExpandWriteTheirWords := by
  refine ⟨fun s => ⟨loadW_frame s, fun j hj => ?loaded, fun t ht => ?kept⟩, fun w t _ ht u => wordAt_expand w ht u⟩
  case loaded => rw [wordAt_loadW, if_pos hj, memRead4_toNat]
  case kept => rw [wordAt_loadW, if_neg (Nat.not_lt.mpr ht)]

/-- Nothing but `W` changes in `LOADW` and the 64 `EXPAND`s. -/
theorem expandAll_loadW_frame (s : State) : expandAll (loadW s) = { s with w := (expandAll (loadW s)).w } := by
  rw [expandAll, loadW]

/-- `W` after `LOADW` and the 64 `EXPAND`s is `Schedule(BLK)`. -/
theorem expandAll_loadW_w_toList (s : State) : (expandAll (loadW s)).w.toList = schedule s.blk := by
  rw [← compress_w, compress_w_toList]

/-- Settles O35: word by word `W` is `Schedule(BLK)`, whose first words are the block's and whose later words meet the
recurrence. -/
theorem scheduleIsExpanded : Obligations.ScheduleIsExpanded := by
  refine fun s => ⟨expandAll_loadW_frame s, fun j hj => ?block, fun t h16 h80 => ?recurrence,
    expandAll_loadW_w_toList s⟩
  case block => rw [wordAt_expandAll_loadW s (by omega), schedule_getD_block _ hj, memRead4]
  case recurrence =>
    have earlier (k : Nat) : wordAt (expandAll (loadW s)).w (t - k) = (schedule s.blk).getD (t - k) 0 :=
      wordAt_expandAll_loadW s (by omega)
    rw [wordAt_expandAll_loadW s h80, schedule_getD_recurrence _ h16 h80, earlier, earlier, earlier, earlier]

end Sys2Proof.Proofs
end

section
/-! SUPPORT. O36, O37: the functions `f_t` and the constants `K_t`, by stage and bit by bit (42_compressor.md R122,
R123). -/

namespace Sys2Proof.Proofs

open Sys2Proof Sys2Proof.Machine

/-! ### The stages -/

/-- Stage 0, rounds 0 to 19. -/
theorem roundF_roundK_stage0 {t : Nat} (h : t < 20) : roundF t = ch ∧ roundK t = 0x5A827999 :=
  ⟨if_pos h, if_pos h⟩

/-- Stage 1, rounds 20 to 39. -/
theorem roundF_roundK_stage1 {t : Nat} (h20 : 20 ≤ t) (h40 : t < 40) : roundF t = parity ∧ roundK t = 0x6ED9EBA1 := by
  rw [roundF, roundK, if_neg h20.not_gt, if_neg h20.not_gt, if_pos h40, if_pos h40]
  exact ⟨rfl, rfl⟩

/-- Stage 2, rounds 40 to 59. -/
theorem roundF_roundK_stage2 {t : Nat} (h40 : 40 ≤ t) (h60 : t < 60) : roundF t = maj ∧ roundK t = 0x8F1BBCDC := by
  have h20 : ¬t < 20 := by omega
  rw [roundF, roundK, if_neg h20, if_neg h20, if_neg h40.not_gt, if_neg h40.not_gt, if_pos h60, if_pos h60]
  exact ⟨rfl, rfl⟩

/-- Stage 3, from round 60 on. -/
theorem roundF_roundK_stage3 {t : Nat} (h60 : 60 ≤ t) : roundF t = parity ∧ roundK t = 0xCA62C1D6 := by
  have h20 : ¬t < 20 := by omega
  have h40 : ¬t < 40 := by omega
  rw [roundF, roundK, if_neg h20, if_neg h20, if_neg h40, if_neg h40, if_neg h60.not_gt, if_neg h60.not_gt]
  exact ⟨rfl, rfl⟩

/-- Settles O36: by the four stages, each of whose functions is its formula. -/
theorem stageSelection : Obligations.StageSelection := by
  refine fun t b c d => ⟨fun h => ?stage0, fun h h' => ?stage1, fun h h' => ?stage2, fun h _ => ?stage3⟩
  case stage0 =>
    obtain ⟨hf, hk⟩ := roundF_roundK_stage0 h
    exact ⟨by rw [hf, ch], hk⟩
  case stage1 =>
    obtain ⟨hf, hk⟩ := roundF_roundK_stage1 h h'
    exact ⟨by rw [hf, parity], hk⟩
  case stage2 =>
    obtain ⟨hf, hk⟩ := roundF_roundK_stage2 h h'
    exact ⟨by rw [hf, maj], hk⟩
  case stage3 =>
    obtain ⟨hf, hk⟩ := roundF_roundK_stage3 h
    exact ⟨by rw [hf, parity], hk⟩

/-! ### The functions bit by bit -/

/-- A bit of `Ch`: the bit of `b` chooses between the bits of `c` and `d`. -/
theorem ch_getLsbD (b c d : Word) {i : Nat} (hi : i < 32) :
    (ch b c d).getLsbD i = if b.getLsbD i then c.getLsbD i else d.getLsbD i := by
  rw [ch, BitVec.getLsbD_or, BitVec.getLsbD_and, BitVec.getLsbD_and, BitVec.getLsbD_not, decide_eq_true hi]
  cases b.getLsbD i with
  | false => simp
  | true => simp

/-- A bit of `Parity`. -/
theorem parity_getLsbD (b c d : Word) (i : Nat) :
    (parity b c d).getLsbD i = ((b.getLsbD i != c.getLsbD i) != d.getLsbD i) := by
  rw [parity, BitVec.getLsbD_xor, BitVec.getLsbD_xor]

/-- The majority of three bits, as `Maj` computes it. -/
theorem majority_eq_decide_two_le (x y z : Bool) :
    ((x && y) || (x && z) || (y && z)) = decide (2 ≤ x.toNat + y.toNat + z.toNat) := by
  revert x y z
  decide

/-- A bit of `Maj` is the majority of the three bits. -/
theorem maj_getLsbD (b c d : Word) (i : Nat) :
    (maj b c d).getLsbD i = decide (2 ≤ (b.getLsbD i).toNat + (c.getLsbD i).toNat + (d.getLsbD i).toNat) := by
  rw [maj, BitVec.getLsbD_or, BitVec.getLsbD_or, BitVec.getLsbD_and, BitVec.getLsbD_and, BitVec.getLsbD_and,
    majority_eq_decide_two_le]

/-- Settles O37: the bits of the three functions. -/
theorem roundFunctionsBitByBit : Obligations.RoundFunctionsBitByBit :=
  fun b c d i hi => ⟨ch_getLsbD b c d hi, parity_getLsbD b c d i, maj_getLsbD b c d i⟩

end Sys2Proof.Proofs
end

section
/-! SUPPORT. O38: what `SEED` and `ROUND` write (42_compressor.md R121, R124). -/

namespace Sys2Proof.Proofs

open Sys2Proof Sys2Proof.Machine

/-- `SEED` is the copy of `H` to `WR`, and nothing else changes. -/
theorem seed_eq (s : State) : seed s = { s with wr := s.h } := rfl

/-- `Round` moves the old `A`, `B` rotated by 30, `C` and `D` one register on. -/
theorem roundFn_shifts (t : Nat) (r : Words5) (w : Word) :
    roundFn t r w = ⟨(roundFn t r w).a, r.a, rotl32 r.b 30, r.c, r.d⟩ := rfl

/-- The new `A` of `Round` is the sum of the five terms modulo 2^32. -/
theorem roundFn_a_toNat (t : Nat) (r : Words5) (w : Word) :
    (roundFn t r w).a.toNat = ((rotl32 r.a 5).toNat + (roundF t r.b r.c r.d).toNat + r.e.toNat +
      (roundK t).toNat + w.toNat) % 2 ^ 32 := by
  simp only [roundFn, BitVec.toNat_add, Nat.mod_add_mod]

/-- Settles O38: `ROUND` is `Round` (`roundOp_eq`), whose value is the shifted registers and the sum. -/
theorem seedAndRoundWriteWorkingRegisters : Obligations.SeedAndRoundWriteWorkingRegisters := by
  refine ⟨seed_eq, fun w r t _ => ?_⟩
  rw [roundOp_eq]
  exact ⟨rfl, roundFn_shifts t r _, roundFn_a_toNat t r _⟩

end Sys2Proof.Proofs
end

section
/-! SUPPORT. O24, O39, O40: the final digest in `DONE` (43_accumulator.md R140), `ACCUM` (R136) and the whole effect of
`COMPRESS` (R138), whose values are proved with `COMPRESS` above. -/

namespace Sys2Proof.Proofs

open Sys2Proof Sys2Proof.Machine

/-- The word 0x1000 is the only one that decodes to `INIT`. -/
theorem eq_0x1000_of_decode_init {cw : CmdWord} (h : decode cw = .legal .init) : cw = 0x1000#16 := by
  obtain ⟨-, hword⟩ := decode_eq_legal_iff.mp h
  have hinit : encode .init = 0x1000#16 := by decide
  exact hword.symm.trans hinit

/-- Settles O24: a reserved word takes a fault, and a legal one is not `INIT`, so it keeps `H` by `exec_h_of_done`. -/
theorem finalDigestIsImmutable : Obligations.FinalDigestIsImmutable := by
  intro s t cw rest hphase hport hne h
  cases hd : decode cw with
  | reserved r =>
    rw [step_reserved hport hd] at h
    obtain rfl := Host.Outcome.next.inj h
    exact State.faultEntry_h ..
  | legal i =>
    rw [step_legal hport hd] at h
    have hi : i ≠ .init := by
      rintro rfl
      exact hne (eq_0x1000_of_decode_init hd)
    exact exec_h_of_done (s := { s with port := rest }) hphase hi h

/-- The sum of two 5-tuples is taken at each index alone. -/
theorem words5_add_get (x y : Words5) (i : Fin 5) : (x.add y).get i = x.get i + y.get i := by
  match i with
  | 0 | 1 | 2 | 3 | 4 => rfl

/-- Nothing but `H` changes in `ACCUM`. -/
theorem accum_frame (s : State) : accum s = { s with h := (accum s).h } := rfl

/-- Settles O39: each word of the sum is a sum of two words. -/
theorem accumAddsWordByWord : Obligations.AccumAddsWordByWord := by
  refine fun s => ⟨accum_frame s, fun i => ?_⟩
  rw [accum_h, words5_add_get, BitVec.toNat_add]

/-- Nothing but `H`, `WR`, `W` and `FILL` changes in `COMPRESS`, and `FILL` is 0 after it. -/
theorem compress_frame (s : State) :
    compress s = { s with h := (compress s).h, wr := (compress s).wr, w := (compress s).w, fill := 0 } := by
  have hdata := compress_writesDataOnly s
  rwa [WritesDataOnly, compress_blk, compress_fill, compress_len] at hdata

/-- Settles O40: the frame, and the values that `COMPRESS` leaves in `W`, `WR` and `H`. -/
theorem compressIsCompressBlock : Obligations.CompressIsCompressBlock := by
  refine fun s => ⟨compress_frame s, compress_w_toList s, compress_wr_eq_rounds s, ?_, compress_h_eq_compressBlock s⟩
  rw [compress_h, compress_wr_eq_rounds]

end Sys2Proof.Proofs
end

section
/-! SUPPORT. O47: the two renderings of a digest state, `toBytes` and `toHex`, element by element (44_readout.md R151,
R152): each is the five words in order, every word cut into as many pieces as every other. -/

namespace Sys2Proof.Proofs

open Sys2Proof Sys2Proof.Machine

/-! ### The words of a digest state -/

/-- The words of a digest state as a list, `H[0]` first. -/
def digestWords (S : Words5) : List Word := [S.a, S.b, S.c, S.d, S.e]

theorem digestWords_getElem? (S : Words5) (i : Fin 5) : (digestWords S)[i.val]? = some (S.get i) := by
  match i with
  | 0 | 1 | 2 | 3 | 4 => rfl

theorem toBytes_eq_flatMap (S : Words5) : toBytes S = (digestWords S).flatMap bytesBe32 := rfl

theorem toHex_eq_flatMap (S : Words5) : toHex S = (digestWords S).flatMap wordHex := rfl

/-- Where every element gives `n` pieces, piece `n * i + r` of all of them is piece `r` of element `i`. -/
theorem flatMap_getElem?_mul_add {α β : Type} {f : α → List β} {n r : Nat} (hlen : ∀ x, (f x).length = n) (hr : r < n)
    {l : List α} {i : Nat} {x : α} (hi : l[i]? = some x) : (l.flatMap f)[n * i + r]? = (f x)[r]? := by
  induction l generalizing i with
  | nil => exact absurd hi nofun
  | cons y l ih =>
    rw [List.flatMap_cons]
    cases i with
    | zero =>
      obtain rfl := Option.some.inj hi
      rw [Nat.mul_zero, Nat.zero_add, List.getElem?_append_left (hr.trans_eq (hlen y).symm)]
    | succ i =>
      have skip : n * (i + 1) + r - n = n * i + r := by rw [Nat.mul_succ]; omega
      rw [List.getElem?_append_right (by rw [hlen, Nat.mul_succ]; omega), hlen, skip]
      exact ih hi

/-! ### Bytes -/

/-- Byte `j` of `toBytes` is the digest byte that `RDB j` selects (R154). -/
theorem toBytes_getElem? (S : Words5) (j : Fin 20) : (toBytes S)[j.val]? = some (digestByte S j) := by
  have hm : j.val % 4 < 4 := Nat.mod_lt _ (by decide)
  have hword := digestWords_getElem? S ⟨j.val / 4, by omega⟩
  have hbyte (w : Word) : (bytesBe32 w)[j.val % 4]? = some (w.extractLsb' (24 - 8 * (j.val % 4)) 8) := by
    have hstart : 8 * (3 - j.val % 4) = 24 - 8 * (j.val % 4) := by omega
    rw [List.getElem?_eq_getElem (by simpa using hm), ← List.getD_eq_getElem _ 0, bytesBe32_getD w hm, hstart]
  rw [toBytes_eq_flatMap, ← Nat.div_add_mod j.val 4, flatMap_getElem?_mul_add bytesBe32_length hm hword, hbyte,
    digestByte]

/-! ### Hexadecimal digits -/

/-- R15's two ranges of digits, as values. -/
theorem hexdigit_toNat (d : BitVec 4) :
    (hexdigit d).toNat = if d.toNat ≤ 9 then 0x30 + d.toNat else 0x61 + (d.toNat - 10) := by
  decide +revert

/-- An ASCII code in `0x30 .. 0x39` or `0x61 .. 0x66`, never an uppercase letter's (R155). -/
def IsLowerHexCode (c : Byte) : Prop :=
  (0x30 ≤ c.toNat ∧ c.toNat ≤ 0x39) ∨ (0x61 ≤ c.toNat ∧ c.toNat ≤ 0x66)

theorem hexdigit_isLowerHexCode (d : BitVec 4) : IsLowerHexCode (hexdigit d) := by
  have hd := d.isLt
  rw [IsLowerHexCode, hexdigit_toNat]
  split <;> omega

@[simp] theorem wordHex_length (w : Word) : (wordHex w).length = 8 := rfl

theorem wordHex_getElem? (w : Word) {n : Nat} (hn : n < 8) :
    (wordHex w)[n]? = some (hexdigit (w.extractLsb' (28 - 4 * n) 4)) := by
  rw [wordHex, List.getElem?_map, List.getElem?_range hn, Option.map_some]

theorem toHex_length (S : Words5) : (toHex S).length = 40 := rfl

/-- Character `n` of word `i` (R152). -/
theorem toHex_getElem?_mul_add (S : Words5) (i : Fin 5) {n : Nat} (hn : n < 8) :
    (toHex S)[8 * i.val + n]? = some (hexdigit ((S.get i).extractLsb' (28 - 4 * n) 4)) := by
  rw [toHex_eq_flatMap, flatMap_getElem?_mul_add wordHex_length hn (digestWords_getElem? S i), wordHex_getElem? _ hn]

/-- Character `k` of `toHex` is the digest character that `RDHEX k` selects (R155). -/
theorem toHex_getElem? (S : Words5) (k : Fin 40) : (toHex S)[k.val]? = some (digestChar S k) := by
  have hchar := toHex_getElem?_mul_add S ⟨k.val / 8, by omega⟩ (Nat.mod_lt k.val (by decide : 0 < 8))
  rwa [Nat.div_add_mod] at hchar

theorem isLowerHexCode_of_mem_toHex {S : Words5} {c : Byte} (h : c ∈ toHex S) : IsLowerHexCode c := by
  rw [toHex_eq_flatMap, List.mem_flatMap] at h
  obtain ⟨w, -, hc⟩ := h
  obtain ⟨n, -, rfl⟩ := List.mem_map.mp hc
  exact hexdigit_isLowerHexCode _

/-- Settles O47: the digits by their values, and `toHex` through the five words that it renders. -/
theorem fortyLowercaseHexCharacters : Obligations.FortyLowercaseHexCharacters :=
  ⟨hexdigit_toNat, fun S => ⟨toHex_length S, fun i _ hn => toHex_getElem?_mul_add S i hn,
    fun _ hc => isLowerHexCode_of_mem_toHex hc⟩⟩

end Sys2Proof.Proofs
end

section
/-! SUPPORT. O11, O12, O13, O46: the three read-out commands (44_readout.md R153, R154, R155) and the agreement of the
bytes with the characters (R156). -/

namespace Sys2Proof.Proofs

open Sys2Proof Sys2Proof.Machine

/-! ### The three cases of a read-out, by its index and the phase -/

section ReadView

variable {n : Nat} {arg : Byte} {cw : CmdWord} {view : Words5 → Fin n → Word} {s : State}

/-- An index beyond the view is turned away before the phase is looked at (R171). -/
theorem readView_of_ge (hn : n ≤ arg.toNat) :
    readView n arg cw view s = .next (s.faultEntry .illegalCommand cw) := by
  rw [readView, indexOperand_of_ge hn]
  exact raise_eq ..

theorem readView_of_ne_done (hn : arg.toNat < n) (hp : s.phase ≠ .done) :
    readView n arg cw view s = .next (s.faultEntry .protocolError cw) := by
  rw [readView, indexOperand_of_lt hn]
  exact inPhase_of_ne hp

theorem readView_of_done (hn : arg.toNat < n) (hp : s.phase = .done) :
    readView n arg cw view s = .next (s.respond (view s.h ⟨arg.toNat, hn⟩)) := by
  rw [readView, indexOperand_of_lt hn]
  exact inPhase_of_eq hp

end ReadView

/-- Settles O11: by the three cases, with word `i` of the digest state as the element. -/
theorem rdwAnswersDigestWord : Obligations.RdwAnswersDigestWord := by
  intro i s
  rw [← Laws.encode_rdw, exec_rdw]
  refine ⟨fun hi hp => ?_, fun hi => readView_of_ge hi, fun hi hp => readView_of_ne_done (Nat.lt_succ_of_le hi) hp,
    fun hi => decode_encode_of_wf (decide_eq_true hi)⟩
  have hlt : i.toNat < 5 := Nat.lt_succ_of_le hi
  exact ⟨_, digestWords_getElem? s.h ⟨i.toNat, hlt⟩, readView_of_done hlt hp⟩

/-- Settles O12: by the three cases, with the byte `j` that `toBytes` has too as the element. -/
theorem rdbAnswersDigestByte : Obligations.RdbAnswersDigestByte := by
  intro j s
  rw [← Laws.encode_rdb, exec_rdb]
  refine ⟨fun hj hp => ?_, fun hj => readView_of_ge hj, fun hj hp => readView_of_ne_done (Nat.lt_succ_of_le hj) hp,
    fun hj => decode_encode_of_wf (decide_eq_true hj)⟩
  have hlt : j.toNat < 20 := Nat.lt_succ_of_le hj
  exact ⟨_, _, digestWords_getElem? s.h ⟨j.toNat / 4, by omega⟩, rfl, toBytes_getElem? s.h ⟨j.toNat, hlt⟩,
    readView_of_done hlt hp⟩

/-- Settles O13: by the three cases, with the character `k` that `toHex` has too as the element. -/
theorem rdhexAnswersDigestCharacter : Obligations.RdhexAnswersDigestCharacter := by
  intro k s
  rw [← Laws.encode_rdhex, exec_rdhex]
  refine ⟨fun hk hp => ?_, fun hk => readView_of_ge hk, fun hk hp => readView_of_ne_done (Nat.lt_succ_of_le hk) hp,
    fun hk => decode_encode_of_wf (decide_eq_true hk)⟩
  have hlt : k.toNat < 40 := Nat.lt_succ_of_le hk
  exact ⟨_, _, digestWords_getElem? s.h ⟨k.toNat / 8, by omega⟩, rfl, toHex_getElem? s.h ⟨k.toNat, hlt⟩,
    hexdigit_isLowerHexCode _, readView_of_done hlt hp⟩

/-! ### Two characters a byte -/

/-- A slice within a slice of a word is a slice of the word. -/
theorem extractLsb'_extractLsb' {w : Nat} (x : BitVec w) {start len start' len' : Nat} (h : start' + len' ≤ len) :
    (x.extractLsb' start len).extractLsb' start' len' = x.extractLsb' (start + start') len' := by
  refine BitVec.eq_of_getLsbD_eq fun i hi => ?_
  have hin : start' + i < len := by omega
  rw [BitVec.getLsbD_extractLsb', BitVec.getLsbD_extractLsb', BitVec.getLsbD_extractLsb', decide_eq_true hin,
    Bool.true_and, Nat.add_assoc]

/-- Character `2j` renders the high nibble of byte `j`, and character `2j + 1` the low one (R156). -/
theorem digestChar_eq_hexdigit_nibble (S : Words5) {k : Fin 40} {j : Fin 20} {m : Nat} (hm : m < 2)
    (hk : k.val = 2 * j.val + m) : digestChar S k = hexdigit ((digestByte S j).extractLsb' (4 - 4 * m) 4) := by
  have hword : k.val / 8 = j.val / 4 := by omega
  have hstart : 28 - 4 * (k.val % 8) = 24 - 8 * (j.val % 4) + (4 - 4 * m) := by omega
  rw [digestChar, digestByte, extractLsb'_extractLsb' _ (by omega), hstart]
  simp only [hword]

/-- `RDHEX 2j + m` in `DONE` answers the digit of a nibble of byte `j`. -/
theorem exec_rdhex_nibble {s : State} (hp : s.phase = .done) (j : Fin 20) {m : Nat} (hm : m < 2) :
    exec (.rdhex (BitVec.ofNat 8 (2 * j.val + m))) s =
      .next (s.respond ((hexdigit ((digestByte s.h j).extractLsb' (4 - 4 * m) 4)).zeroExtend 32)) := by
  have harg : (BitVec.ofNat 8 (2 * j.val + m)).toNat = 2 * j.val + m := by
    rw [BitVec.toNat_ofNat]; omega
  rw [exec_rdhex, readView_of_done (by omega) hp, digestChar_eq_hexdigit_nibble s.h hm harg]

theorem exec_rdb_of_done {s : State} (hp : s.phase = .done) (j : Fin 20) :
    exec (.rdb (BitVec.ofNat 8 j.val)) s = .next (s.respond ((digestByte s.h j).zeroExtend 32)) := by
  have harg : (BitVec.ofNat 8 j.val).toNat = j.val := by
    rw [BitVec.toNat_ofNat]; omega
  rw [exec_rdb, readView_of_done (by omega) hp]
  simp only [harg]

/-- Settles O46: the byte that `RDB j` answers, and its two nibbles. -/
theorem hexIsTheHexOfTheBytes : Obligations.HexIsTheHexOfTheBytes := by
  intro s j hj hp
  have hlt : j < 20 := Nat.lt_succ_of_le hj
  exact ⟨digestByte s.h ⟨j, hlt⟩, exec_rdb_of_done hp ⟨j, hlt⟩, exec_rdhex_nibble hp ⟨j, hlt⟩ (m := 0) (by decide),
    exec_rdhex_nibble hp ⟨j, hlt⟩ (m := 1) (by decide)⟩

end Sys2Proof.Proofs
end

section
/-! SUPPORT. O14: the fields of `STATUS` (10_state.md R30) and the command that reads it (44_readout.md R157). -/

namespace Sys2Proof.Proofs

open Sys2Proof Sys2Proof.Machine

/-! ### The fields of `STATUS` -/

/-- The fields fit side by side, so that none runs into the next. -/
theorem status_toNat (s : State) : s.status.toNat = s.badcmd.toNat * 2 ^ 16 +
    (BitVec.ofNat 6 s.fill).toNat * 2 ^ 8 + (errCode s.err).toNat * 2 ^ 4 + s.phase.code.toNat := by
  rw [State.status, BitVec.toNat_ofNat]
  omega

/-- A slice of `STATUS` is a field when the sum of the fields, cut at the slice's bits, leaves the field's value. -/
theorem status_extractLsb' {s : State} {start len : Nat} {x : BitVec len}
    (h : (s.badcmd.toNat * 2 ^ 16 + (BitVec.ofNat 6 s.fill).toNat * 2 ^ 8 + (errCode s.err).toNat * 2 ^ 4 +
      s.phase.code.toNat) / 2 ^ start % 2 ^ len = x.toNat) : s.status.extractLsb' start len = x := by
  apply BitVec.eq_of_toNat_eq
  rw [BitVec.extractLsb'_toNat, Nat.shiftRight_eq_div_pow, status_toNat, h]

theorem status_phase (s : State) : s.status.extractLsb' 0 2 = s.phase.code := status_extractLsb' (by omega)

theorem status_zeros_3_2 (s : State) : s.status.extractLsb' 2 2 = 0#2 :=
  status_extractLsb' (by rw [BitVec.toNat_zero]; omega)

theorem status_err (s : State) : s.status.extractLsb' 4 4 = errCode s.err := status_extractLsb' (by omega)

theorem status_fill (s : State) : s.status.extractLsb' 8 6 = BitVec.ofNat 6 s.fill := status_extractLsb' (by omega)

theorem status_zeros_15_14 (s : State) : s.status.extractLsb' 14 2 = 0#2 :=
  status_extractLsb' (by rw [BitVec.toNat_zero]; omega)

theorem status_badcmd (s : State) : s.status.extractLsb' 16 16 = s.badcmd := status_extractLsb' (by omega)

/-! ### `STAT` -/

/-- `STAT` answers in every state. -/
theorem exec_stat (s : State) : exec .stat s = .next (s.respond s.status) := rfl

theorem eq_stat_of_op {j : Instr} (h : j.op = Instr.stat.op) : j = .stat := by
  cases j <;> simp [Instr.op] at h ⊢

/-- Settles O14: the fields of `STATUS` one by one, and the other words by `decode_reserved_of_op`. -/
theorem statAnswersStatus : Obligations.StatAnswersStatus :=
  ⟨fun s => ⟨s.status, exec_stat s, status_phase s, status_zeros_3_2 s, status_err s, status_fill s,
    status_zeros_15_14 s, status_badcmd s⟩, decode_encode_of_wf (i := .stat) rfl,
    fun _ hop hne => decode_reserved_of_op (i := .stat) (fun _ => eq_stat_of_op) hop hne⟩

end Sys2Proof.Proofs
end

section
/-! SUPPORT. O15, O16, O18, O23: fault entry (60_exceptions.md R170), what the recorded word says of the recorded fault
(R166), and that a command which faults does nothing else, in phase `FAULT` (R174) and outside it (R172). -/

namespace Sys2Proof.Proofs

open Sys2Proof Sys2Proof.Machine

/-! ### Fault entry -/

/-- Fault entry in phase `FAULT` keeps the first record (R170, R174). -/
theorem faultEntry_of_fault {s : State} (h : s.phase = .fault) (c : FaultCode) (cw : CmdWord) :
    s.faultEntry c cw = { s with response := some ⟨true, c.data⟩ } := by
  rw [State.faultEntry, if_pos h, if_pos h, ← h]

/-- Settles O15: by whether the phase is `FAULT` already. -/
theorem faultEntryRecordsTheFirstFault : Obligations.FaultEntryRecordsTheFirstFault := by
  intro s code cw n hn
  obtain rfl : n = code.data := by cases code <;> exact hn
  rw [raise_eq]
  exact ⟨fun hp => congrArg _ (faultEntry_of_ne_fault hp code cw), fun hp => congrArg _ (faultEntry_of_fault hp code cw)⟩

/-! ### The recorded word explains the recorded fault -/

/-- The word `cw` is one that can take the fault `c` (R166): the meaning that `FaultRecordSound` gives to a record. -/
def Explains (cw : CmdWord) : FaultCode → Prop
  | .illegalCommand => ∃ r, decode cw = .reserved r
  | .protocolError => ∃ i, decode cw = .legal i ∧ i ≠ .init ∧ i ≠ .stat
  | .lengthOverflow => ∃ b, decode cw = .legal (.push b)

theorem faultRecordSound_iff {s : State} : FaultRecordSound s ↔ ∀ c, s.err = some c → Explains s.badcmd c := by
  unfold FaultRecordSound
  cases s.err with
  | none => exact iff_of_true trivial nofun
  | some c => cases c <;> simp [Explains]

theorem faultRecordSound_of_err_none {s : State} (h : s.err = none) : FaultRecordSound s :=
  faultRecordSound_iff.mpr fun _ hc => absurd (h.symm.trans hc) nofun

/-- A record that is carried over stays sound. -/
theorem faultRecordSound_of_same_record {s t : State} (hs : FaultRecordSound s) (herr : t.err = s.err)
    (hbad : t.badcmd = s.badcmd) : FaultRecordSound t := by
  rw [faultRecordSound_iff] at hs ⊢
  rwa [herr, hbad]

/-- Fault entry keeps the first record, or records a word that explains the fault. -/
theorem faultRecordSound_faultEntry {s : State} {c : FaultCode} {cw : CmdWord} (hs : FaultRecordSound s)
    (hc : Explains cw c) : FaultRecordSound (s.faultEntry c cw) := by
  by_cases hp : s.phase = .fault
  · rw [faultEntry_of_fault hp]
    exact hs
  · rw [faultEntry_of_ne_fault hp, faultRecordSound_iff]
    rintro _ ⟨⟩
    exact hc

/-- A legal command's word explains the fault that the command takes. -/
theorem explains_of_takesFault {i : Instr} {s : State} {c : FaultCode} (hwf : i.wf = true) (h : TakesFault i s c) :
    Explains (encode i) c := by
  have hd := decode_encode_of_wf hwf
  cases c with
  | illegalCommand => exact absurd (hwf.symm.trans h) nofun
  | protocolError =>
    obtain ⟨-, ⟨-, ⟨_, rfl⟩ | rfl⟩ | ⟨-, ⟨_, rfl⟩ | ⟨_, rfl⟩ | ⟨_, rfl⟩⟩⟩ := h <;> exact ⟨_, hd, nofun, nofun⟩
  | lengthOverflow =>
    obtain ⟨-, -, b, rfl⟩ := h
    exact ⟨b, hd⟩

/-- A legal command takes a fault that its word explains and does nothing else, or it answers without fault and keeps
or clears the record. -/
theorem exec_faults_or_answers {i : Instr} {s t : State} (hwf : i.wf = true) (h : exec i s = .next t) :
    (∃ c, Explains (encode i) c ∧ t = s.faultEntry c (encode i)) ∨
    ((∃ d, t.response = some ⟨false, d⟩) ∧ (t.err = none ∨ t.err = s.err ∧ t.badcmd = s.badcmd)) := by
  obtain ⟨c, hc, rfl⟩ | ⟨-, rfl⟩ | ⟨b, -, -, -, -, rfl⟩ | ⟨-, -, -, rfl⟩ | ⟨-, d, rfl⟩ := exec_next h
  · exact .inl ⟨c, explains_of_takesFault hwf hc, rfl⟩
  · exact .inr ⟨⟨_, State.respond_response ..⟩, .inl rfl⟩
  · rw [State.respond_response, State.respond_err, State.respond_badcmd, absorbByte_err, absorbByte_badcmd]
    exact .inr ⟨⟨_, rfl⟩, .inr ⟨rfl, rfl⟩⟩
  · rw [State.respond_response, State.respond_err, State.respond_badcmd, State.setPhase_err, State.setPhase_badcmd,
      closeMessage_err, closeMessage_badcmd]
    exact .inr ⟨⟨_, rfl⟩, .inr ⟨rfl, rfl⟩⟩
  · exact .inr ⟨⟨d, State.respond_response ..⟩, .inr ⟨rfl, rfl⟩⟩

theorem faultRecordSound_exec {i : Instr} {s t : State} (hwf : i.wf = true) (hs : FaultRecordSound s)
    (h : exec i s = .next t) : FaultRecordSound t := by
  obtain ⟨c, hc, rfl⟩ | ⟨-, herr | ⟨herr, hbad⟩⟩ := exec_faults_or_answers hwf h
  · exact faultRecordSound_faultEntry hs hc
  · exact faultRecordSound_of_err_none herr
  · exact faultRecordSound_of_same_record hs herr hbad

/-- Settles O23: by the four kinds of step, idle, reset event, reserved word and legal command. -/
theorem faultRecordSoundKept : Obligations.FaultRecordSoundKept := by
  intro s t hs h
  obtain ⟨-, rfl⟩ | ⟨rest, -, rfl⟩ | ⟨cw, rest, r, -, hd, rfl⟩ | ⟨cw, rest, i, -, hd, he⟩ := step_next h
  · exact hs
  · exact faultRecordSound_of_err_none (State.applyReset_err _)
  · exact faultRecordSound_faultEntry (s := { s with port := rest }) hs ⟨r, hd⟩
  · obtain ⟨hwf, -⟩ := decode_eq_legal_iff.mp hd
    exact faultRecordSound_exec (s := { s with port := rest }) hwf hs he

/-! ### A command that faults -/

/-- A step on a presented word that answers a fault is fault entry with that word. -/
theorem eq_faultEntry_of_faulted {s t : State} {cw : CmdWord} {rest : List HostEvent} {d : Word}
    (hport : s.port = .command cw :: rest) (h : step s = .next t) (hr : t.response = some ⟨true, d⟩) :
    ∃ c, t = ({ s with port := rest } : State).faultEntry c cw := by
  cases hd : decode cw with
  | reserved r =>
    rw [step_reserved hport hd] at h
    exact ⟨_, (Host.Outcome.next.inj h).symm⟩
  | legal i =>
    obtain ⟨hwf, rfl⟩ := decode_eq_legal_iff.mp hd
    rw [step_legal hport hd] at h
    obtain ⟨c, -, ht⟩ | ⟨⟨d', hr'⟩, -⟩ := exec_faults_or_answers hwf h
    · exact ⟨c, ht⟩
    · exact absurd (hr.symm.trans hr') nofun

/-- Settles O16: such a step is fault entry, so its effect is fault entry's. -/
theorem faultingCommandChangesNothingElse : Obligations.FaultingCommandChangesNothingElse := by
  intro s t cw rest d hport h hr
  obtain ⟨c, rfl⟩ := eq_faultEntry_of_faulted hport h hr
  rw [State.faultEntry_response] at hr
  obtain rfl : c.data = d := by simpa using hr
  exact ⟨rfl, fun hp => ⟨if_neg hp, c, if_neg hp, rfl⟩, fun hp => ⟨if_pos hp, if_pos hp⟩⟩

/-! ### Phase `FAULT` -/

/-- In phase `FAULT` no legal command but `INIT` and `STAT` is accepted. -/
theorem exec_of_fault {i : Instr} {s : State} (hp : s.phase = .fault) (hwf : i.wf = true) (hinit : i ≠ .init)
    (hstat : i ≠ .stat) : exec i s = .next (s.faultEntry .protocolError (encode i)) := by
  have habsorb : s.phase ≠ .absorb := by rw [hp]; exact nofun
  have hdone : s.phase ≠ .done := by rw [hp]; exact nofun
  cases i with
  | init => exact absurd rfl hinit
  | push b => exact exec_push_protocol habsorb
  | final => exact exec_final_protocol habsorb
  | rdw n =>
    rw [exec_rdw]
    exact readView_of_ne_done (Nat.lt_succ_of_le (of_decide_eq_true hwf)) hdone
  | rdb n =>
    rw [exec_rdb]
    exact readView_of_ne_done (Nat.lt_succ_of_le (of_decide_eq_true hwf)) hdone
  | rdhex n =>
    rw [exec_rdhex]
    exact readView_of_ne_done (Nat.lt_succ_of_le (of_decide_eq_true hwf)) hdone
  | stat => exact absurd rfl hstat

/-- The step on a word but `INIT`'s and `STAT`'s in phase `FAULT`: only the response changes. -/
theorem step_of_fault {s : State} {cw : CmdWord} {rest : List HostEvent} (hp : s.phase = .fault)
    (hport : s.port = .command cw :: rest) (hinit : cw ≠ 0x1000#16) (hstat : cw ≠ 0x7000#16) :
    ∃ c : FaultCode, step s = .next { s with port := rest, response := some ⟨true, c.data⟩ } ∧
      ((∃ r, decode cw = .reserved r) → c = .illegalCommand) ∧ ((∃ i, decode cw = .legal i) → c = .protocolError) := by
  cases hd : decode cw with
  | reserved r =>
    rw [step_reserved hport hd, faultEntry_of_fault (s := { s with port := rest }) hp]
    exact ⟨.illegalCommand, rfl, fun _ => rfl, fun ⟨_, h⟩ => absurd h nofun⟩
  | legal i =>
    obtain ⟨hwf, rfl⟩ := decode_eq_legal_iff.mp hd
    have hi : i ≠ .init := fun h => hinit (congrArg encode h)
    have hs : i ≠ .stat := fun h => hstat (congrArg encode h)
    rw [step_legal hport hd, exec_of_fault (s := { s with port := rest }) hp hwf hi hs,
      faultEntry_of_fault (s := { s with port := rest }) hp]
    exact ⟨.protocolError, rfl, fun ⟨_, h⟩ => absurd h nofun, fun _ => rfl⟩

/-- Settles O18: `INIT`, `STAT`, and every other word by `step_of_fault`. -/
theorem onlyInitLeavesFault : Obligations.OnlyInitLeavesFault := by
  intro s cw rest hp hport
  by_cases hinit : cw = 0x1000#16
  · subst hinit
    have hstep := (step_encode (i := .init) rfl hport).trans (exec_init _)
    exact ⟨_, hstep, (absurd rfl ·), (absurd rfl ·), (absurd rfl ·), fun _ => ⟨rfl, rfl, rfl, rfl⟩⟩
  by_cases hstat : cw = 0x7000#16
  · subst hstat
    have hstep := (step_encode (i := .stat) rfl hport).trans (exec_stat _)
    exact ⟨_, hstep, fun _ => ⟨hp, rfl, rfl⟩, fun _ => (absurd rfl ·), fun _ => (absurd rfl ·), (absurd · hinit)⟩
  obtain ⟨c, hstep, hreserved, hlegal⟩ := step_of_fault hp hport hinit hstat
  refine ⟨_, hstep, fun _ => ⟨hp, rfl, rfl⟩, fun _ _ hr => ?_, fun _ _ hi => ?_, (absurd · hinit)⟩
  · obtain rfl := hreserved hr
    rfl
  · obtain rfl := hlegal hi
    rfl

end Sys2Proof.Proofs
end

section
/-! SUPPORT. O7: the control state that a reset leaves, at power-on and applied between two commands (10_state.md R35,
70_reset_and_hazards.md R190). -/

namespace Sys2Proof.Proofs

open Sys2Proof Sys2Proof.Machine

/-- `STATUS` in `IDLE` with an empty buffer and no fault recorded (R30, R35). -/
theorem status_of_cleared {s : State} (hphase : s.phase = .idle) (hfill : s.fill = 0) (herr : s.err = none)
    (hbad : s.badcmd = 0) : s.status = 0x00000000#32 := by
  rw [State.status, hphase, hfill, herr, hbad]
  decide

/-- The step on a reset event. -/
theorem step_reset {s : State} {rest : List HostEvent} (hport : s.port = .reset :: rest) :
    step s = .next ({ s with port := rest } : State).applyReset := by
  simp only [step, nextEvent, hport, handleEvent]

/-- `STATUS` after a reset event is zero, whatever data the reset leaves. -/
@[simp] theorem applyReset_status (s : State) : s.applyReset.status = 0x00000000#32 :=
  status_of_cleared (State.applyReset_phase s) (State.applyReset_fill s) (State.applyReset_err s)
    (State.applyReset_badcmd s)

/-- Settles O7: power-on by the fields of the reset state, and a reset event by what `applyReset` writes. -/
theorem resetLeavesTheControlState : Obligations.ResetLeavesTheControlState := by
  refine ⟨⟨rfl, rfl, rfl, rfl, rfl, status_of_cleared rfl rfl rfl rfl⟩, fun s rest hport => ?_⟩
  refine ⟨_, step_reset hport, ?_⟩
  simp only [State.applyReset_phase, State.applyReset_err, State.applyReset_badcmd, State.applyReset_fill,
    State.applyReset_len, applyReset_status, State.applyReset_lenBits, State.applyReset_port,
    State.applyReset_response, and_self]

end Sys2Proof.Proofs
end

section
/-! SUPPORT. O5, O6, O19: the step on a presented command and with nothing presented (30_encoding.md R71, R77;
60_exceptions.md R183), and the states in which a command stops the model (20_memory.md R54). -/

namespace Sys2Proof.Proofs

open Sys2Proof Sys2Proof.Machine

/-! ### The step -/

/-- Reading a command word as a 16-bit table word gives it back (R72). -/
@[simp] theorem commandOfTableWord_toNat (cw : CmdWord) : commandOfTableWord 16 cw.toNat = cw := by
  rw [commandOfTableWord, Nat.mod_eq_of_lt cw.isLt, BitVec.ofNat_toNat, BitVec.setWidth_eq]

/-- The port after a command's word has been placed at its head. -/
theorem withFetchWord_encode_port (s : State) (i : Instr) :
    (s.withFetchWord 16 (encode i).toNat).port = .command (encode i) :: s.port := by
  rw [State.withFetchWord, commandOfTableWord_toNat, present]

/-- Settles O5: by the step on a legal word, which takes off the port what `withFetchWord` places there. -/
theorem stepRunsTheDecodedCommand : Obligations.StepRunsTheDecodedCommand :=
  ⟨fun _ _ _ _ => step_legal, fun s i hwf => step_encode hwf (withFetchWord_encode_port s i)⟩

/-- Settles O6: an empty port is the first case of the step. -/
theorem idleStepKeepsAllState : Obligations.IdleStepKeepsAllState := by
  intro s hport
  rw [step, nextEvent, hport]

/-! ### The model's own stops -/

/-- The command would write a byte beyond `BLK[63]` (R54): it passes its checks (R94, R95) and `FILL` is no offset of
the buffer. -/
def WritesBeyondBuffer (i : Instr) (s : State) : Prop :=
  s.phase = .absorb ∧ 63 < s.fill ∧ (i = .final ∨ (∃ b, i = .push b) ∧ s.len ≠ s.lenMax)

/-- A read-out command answers in every state. -/
theorem readView_answers (n : Nat) (arg : Byte) (cw : CmdWord) (view : Words5 → Fin n → Word) (s : State) :
    ∃ t, readView n arg cw view s = .next t := by
  obtain ⟨-, he⟩ | ⟨-, -, he⟩ | ⟨_, -, he⟩ := readView_cases n arg cw view s <;> exact ⟨_, he⟩

/-- Such a command stops the model. -/
theorem exec_of_writesBeyondBuffer {i : Instr} {s : State} (h : WritesBeyondBuffer i s) :
    exec i s = .fault .fillOutOfRange := by
  obtain ⟨hp, hf, rfl | ⟨⟨b, rfl⟩, hl⟩⟩ := h
  · rw [exec, execFinal, inPhase_of_eq hp, if_pos hf]
  · rw [exec, execPush, inPhase_of_eq hp, if_neg hl, if_pos hf]

/-- Every other command has a next state. -/
theorem exec_of_not_writesBeyondBuffer {i : Instr} {s : State} (h : ¬ WritesBeyondBuffer i s) :
    ∃ t, exec i s = .next t := by
  cases i with
  | init => exact ⟨_, exec_init s⟩
  | push b =>
    by_cases hp : s.phase = .absorb
    · by_cases hl : s.len = s.lenMax
      · exact ⟨_, exec_push_overflows hp hl⟩
      · have hf : s.fill ≤ 63 := Nat.le_of_not_lt fun hf => h ⟨hp, hf, .inr ⟨⟨b, rfl⟩, hl⟩⟩
        exact ⟨_, exec_push_absorbs hp hl hf⟩
    · exact ⟨_, exec_push_protocol hp⟩
  | final =>
    by_cases hp : s.phase = .absorb
    · have hf : s.fill ≤ 63 := Nat.le_of_not_lt fun hf => h ⟨hp, hf, .inl rfl⟩
      exact ⟨_, exec_final_closes hp hf⟩
    · exact ⟨_, exec_final_protocol hp⟩
  | rdw n =>
    rw [exec_rdw]
    exact readView_answers ..
  | rdb n =>
    rw [exec_rdb]
    exact readView_answers ..
  | rdhex n =>
    rw [exec_rdhex]
    exact readView_answers ..
  | stat => exact ⟨_, exec_stat s⟩

/-- Settles O19: a command that would write beyond the buffer answers a fault, and every other one a next state. -/
theorem commandsStopOnlyBeyondTheBuffer : Obligations.CommandsStopOnlyBeyondTheBuffer := by
  intro i s
  by_cases h : WritesBeyondBuffer i s
  · rw [exec_of_writesBeyondBuffer h]
    exact ⟨nofun, iff_of_true ⟨_, rfl⟩ h⟩
  · obtain ⟨t, ht⟩ := exec_of_not_writesBeyondBuffer h
    rw [ht]
    exact ⟨nofun, iff_of_false (fun ⟨_, hr⟩ => nomatch hr) h⟩

end Sys2Proof.Proofs
end
